-- ==== Sys2Proof/Word.lean ====
section
/-! DEFINITION. The two bit-vector types of the block: a 32-bit register word and an 8-bit byte of buffer memory. -/

namespace Sys2Proof

/-- A word of the register window, and a command word (R23, R70). -/
abbrev Word := BitVec 32

/-- A byte of buffer memory (R41). -/
abbrev Byte := BitVec 8

end Sys2Proof
end

