-- ==== Sys2Proof/Config.lean ====
section
/-! DEFINITION. The four parameters of the block (00_scope.md R8), the example configuration, and the free
values: those the spec tells a model to draw (93_implementation_defined.md U10, U11, U14, U15), and those it gives
the host's notation no value for (30_encoding.md R80, R84; log 23). -/

namespace Sys2Proof

/-- The parameters of R8: "a model takes [them] as arguments". Plain data; no step changes them (log 1).
REG_BASE is an address of the host bus, whose width the spec does not give, so it is a natural number (log 20). -/
structure Config where
  /-- ADDR_W: bits of a buffer-memory byte address. -/
  addrW : Nat
  /-- MEM_BYTES: bytes of buffer memory. -/
  memBytes : Nat
  /-- CNT_W: bits of a bit count, a bit index and a syndrome. -/
  cntW : Nat
  /-- REG_BASE: host bus address of the 32-byte register window. -/
  regBase : Nat
  deriving DecidableEq, Repr

/-- R8: "The example configuration used by every test vector". -/
def Config.exampleCfg : Config :=
  { addrW := 16, memBytes := 65536, cntW := 32, regBase := 0x40000000 }

/-- What the byte of buffer memory at an address holds at power-on: unspecified, a free draw per address (R203, U15; log 5). -/
opaque Config.powerOnByte : Nat → Byte

/-- The `k`-th freely drawn byte: an output byte of a command abandoned by reset (R202, U14), a byte
touched in a HostRace or the value such a read returns (R63, U11), the byte that an `SB` of no imm8 writes (R80). Log 6, log 23. -/
opaque Config.freeByte : Nat → Byte

/-- The `k`-th freely drawn word: a result register read while BUSY = 1 (R207, U10), the word that a `WR` of no
imm32 writes (R80). Log 6, log 23. -/
opaque Config.freeWord : Nat → Word

/-- The `k`-th freely drawn line number: where a branch to a label that no line carries goes (R84). Log 23. -/
opaque Config.freeLine : Nat → Nat

/-- What the host variable of a number holds before it is written, which R84 says no program reads. Log 23. -/
opaque Config.unwrittenVar : Nat → Int

/-- `a << b` for a negative `b` (R12). Log 23. -/
opaque Config.openShl : Int → Int → Int

/-- `a >> b` for a negative `b`. Log 23. -/
opaque Config.openShr : Int → Int → Int

/-- `a div b` for a `b` that is not positive (R12: "with `b > 0`"). Log 23. -/
opaque Config.openDiv : Int → Int → Int

/-- `a mod b` for a `b` that is not positive (R12: "with `b > 0`"). Log 23. -/
opaque Config.openMod : Int → Int → Int

end Sys2Proof
end

