-- ==== Sys2Proof/Syntax.lean ====
section
/-! DEFINITION. The six commands of `HECC-CMD1` (30_encoding.md R72), one constructor per row of spec/opcode_table.json. -/

namespace Sys2Proof

/-- A command. Every operand but `VAL` comes from the operand registers (R71), so only SET_BIT carries
one: its bit value, a single bit of the word (R74). -/
inductive Instr where
  /-- ENCODE, word `0x0000_0001` (R110). -/
  | encode
  /-- DECODE, word `0x0000_0002` (R130). -/
  | decode
  /-- CORRECT, word `0x0000_0003` (R150). -/
  | correct
  /-- GET_BIT, word `0x0000_0004` (R91). -/
  | getBit
  /-- SET_BIT, word `0x0000_0005` for `val = false` and `0x0000_0015` for `val = true` (R93). -/
  | setBit (val : Bool)
  /-- FLIP_BIT, word `0x0000_0006` (R95). -/
  | flipBit
  deriving DecidableEq, Repr

end Sys2Proof
end

