-- ==== Sys2Proof/WellFormed.lean ====
section
/-! DEFINITION. Well-formedness: of a command, and of a configuration (00_scope.md R8). -/

namespace Sys2Proof

/-- Every term of `Instr` is a legal command: the type has exactly the seven terms that the seven legal
words of R72 stand for (VAL is one bit, so "no other truthy value can be encoded", R74). Nothing is left to check. -/
def Instr.wellFormed : Instr → Bool
  | .encode => true
  | .decode => true
  | .correct => true
  | .getBit => true
  | .setBit _ => true
  | .flipBit => true

/-- R8: `1 <= ADDR_W <= 32`. -/
def Config.addrWOk (c : Config) : Bool := decide (1 ≤ c.addrW) && decide (c.addrW ≤ 32)

/-- R8: `1 <= MEM_BYTES <= 2^ADDR_W`. -/
def Config.memBytesOk (c : Config) : Bool := decide (1 ≤ c.memBytes) && decide (c.memBytes ≤ 2 ^ c.addrW)

/-- R8: `2 <= CNT_W <= 32`. -/
def Config.cntWOk (c : Config) : Bool := decide (2 ≤ c.cntW) && decide (c.cntW ≤ 32)

/-- R8: REG_BASE "is aligned to 32 bytes". -/
def Config.regBaseOk (c : Config) : Bool := decide (c.regBase % 32 = 0)

/-- A configuration R8 allows. -/
def Config.wellFormed (c : Config) : Bool :=
  c.addrWOk && c.memBytesOk && c.cntWOk && c.regBaseOk

end Sys2Proof
end

