-- ==== Sys2Proof/Decode.lean ====
section
/-! DEFINITION. The command decoder of 30_encoding.md R78, total on every 32-bit word and rejecting by name,
and the encoder beside it, written from the same format (R70) and opcode map (R72). -/

namespace Sys2Proof

/-- Why a word is `Illegal` (R75, R76). All three raise ILLEGAL_CMD (R175). -/
inductive IllegalWord where
  /-- `w[31:5]` is not 0 (R76). -/
  | reservedBits
  /-- `w[4] = 1` and OP is not 0x5 (R76). -/
  | strayVal
  /-- OP is 0x0 or 0x7 to 0xF (R75). -/
  | reservedOp
  deriving DecidableEq, Repr

/-- RSV, bits 31:5 (R70). -/
def rsvField (w : Word) : BitVec 27 := w.extractLsb' 5 27

/-- VAL, bit 4 (R70). -/
def valField (w : Word) : Bool := w.getLsbD 4

/-- OP, bits 3:0 (R70). -/
def opField (w : Word) : BitVec 4 := w.extractLsb' 0 4

/-- The opcode map of R72 for the commands whose VAL must be 0. -/
def decodeOp (op : BitVec 4) : Except IllegalWord Instr :=
  if op = 0x1 then .ok .encode
  else if op = 0x2 then .ok .decode
  else if op = 0x3 then .ok .correct
  else if op = 0x4 then .ok .getBit
  else if op = 0x6 then .ok .flipBit
  else .error .reservedOp

/-- `decode_cmd` of R78, in its order of tests. -/
def decode (w : Word) : Except IllegalWord Instr :=
  if rsvField w ≠ 0 then .error .reservedBits
  else if opField w = 0x5 then .ok (.setBit (valField w))
  else if valField w then .error .strayVal
  else decodeOp (opField w)

/-- The format CMD32 of R70: RSV (zero), VAL and OP side by side. -/
def cmd32 (val : Bool) (op : BitVec 4) : Word := (0#27 ++ BitVec.ofBool val) ++ op

/-- The word of a command (R70, R72). -/
def encode : Instr → Word
  | .encode => cmd32 false 0x1
  | .decode => cmd32 false 0x2
  | .correct => cmd32 false 0x3
  | .getBit => cmd32 false 0x4
  | .setBit v => cmd32 v 0x5
  | .flipBit => cmd32 false 0x6

/-- The command the decoder reads from a row of spec/opcode_table.json whose bits are `w`. A command is one
32-bit register word (R53, R70, R79): bit `j` of the table is bus data bit `j` (R52), and no longer form exists. -/
def decodeTableWord (nbits w : Nat) : Option Instr :=
  if w % 2 ^ nbits < 2 ^ 32 then (decode (BitVec.ofNat 32 (w % 2 ^ nbits))).toOption else none

end Sys2Proof
end

