-- ==== Sys2Proof/Machine/HostProgram.lean ====
section
/-! DEFINITION. The host's notation (30_encoding.md R80 to R85) as plain data: the registers it names, the
lines of a host program, and the pseudo-instructions and macros as functions that give their expansions.
The block never sees these forms (R84); they are what the host agent of State executes. -/

namespace Sys2Proof.Machine

/-- The eight registers of the window (R23). -/
inductive Reg where
  | cmd
  | status
  | dstAddr
  | srcAddr
  | count
  | resCount
  | resSynd
  | resBit
  deriving DecidableEq, Repr

/-- Offsets in the window (R23). -/
def Reg.offset : Reg → Nat
  | .cmd => 0x00
  | .status => 0x04
  | .dstAddr => 0x08
  | .srcAddr => 0x0C
  | .count => 0x10
  | .resCount => 0x14
  | .resSynd => 0x18
  | .resBit => 0x1C

/-- The operators of an expression: sum, difference, product, a right shift, and those of R12's notation. R84 names
none: DESIGN CHOICE (log 16). -/
inductive BinOp where
  | add
  | sub
  | mul
  | land
  | lor
  | xor
  | shl
  | shr
  | div
  | mod
  deriving DecidableEq, Repr

/-- The result of an operator on unbounded integers (R84). For a negative shift amount, and for a divisor that is not
positive (R12: "with `b > 0`"), it is a free value of the operands (log 23). The bitwise operators of negative integers
are those of two's complement, and their quotients round down: DESIGN CHOICE (log 16). -/
def BinOp.apply (op : BinOp) (a b : Int) : Int :=
  match op with
  | .add => a + b
  | .sub => a - b
  | .mul => a * b
  | .land => Int.land a b
  | .lor => Int.lor a b
  | .xor => Int.xor a b
  | .shl => if 0 ≤ b then a * 2 ^ b.toNat else Config.openShl a b
  | .shr => if 0 ≤ b then a / 2 ^ b.toNat else Config.openShr a b
  | .div => if 0 < b then a / b else Config.openDiv a b
  | .mod => if 0 < b then a % b else Config.openMod a b

/-- An expression over unbounded integers and host variables, in which a register read and a byte read may stand
anywhere (R84: "A register read may be written in an expression as `RD <reg>`, and a buffer-memory byte read as
`LB <addr>`"). Variables are named by numbers. -/
inductive Expr where
  | lit (n : Int)
  | var (x : Nat)
  | bin (op : BinOp) (a b : Expr)
  | rd (r : Reg)
  | lb (addr : Expr)
  deriving DecidableEq, Repr

/-- A branch target: a label anywhere, or `1b`, the nearest such label at or before the branch (R84). -/
inductive Target where
  | named (l : Nat)
  | back (l : Nat)
  deriving DecidableEq, Repr

/-- The comparison of an ASSERT condition, whose form R84 leaves open: DESIGN CHOICE (log 16). -/
inductive Cmp where
  | eq
  | ne
  | lt
  | le
  deriving DecidableEq, Repr

/-- One line's operation. The first four are the base forms of R80; the two bus forms are any other access
of a given width in bytes (R186); the rest is the host-side control flow of R84. -/
inductive HostOp where
  | wr (r : Reg) (v : Expr)
  | rd (r : Reg)
  | sb (addr v : Expr)
  | lb (addr : Expr)
  | busWrite (addr width : Nat) (data : Word)
  | busRead (addr width : Nat)
  | mov (x : Nat) (v : Expr)
  | add (x : Nat) (v : Expr)
  | blt (a b : Expr) (t : Target)
  | bne (a b : Expr) (t : Target)
  | assert (a : Expr) (c : Cmp) (b : Expr)
  deriving DecidableEq, Repr

/-- A line of a host program: one form, with the labels written before it. R84 does not say how labels attach to
lines: that a line may carry any number of them (a named label before a WAIT, whose first line has the label `1:`),
and that a label stands before a form, so that none follows the last one, is the model's, DESIGN CHOICE (log 16). -/
structure HostLine where
  labels : List Nat
  op : HostOp
  deriving DecidableEq, Repr

/-- A line without labels. -/
def HostOp.line (op : HostOp) : HostLine := { labels := [], op := op }

/-- The pseudo-instruction of a command: one CMD write of its word (R81). -/
def cmdLine (i : Instr) : HostLine := (HostOp.wr .cmd (.lit (encode i).toNat)).line

/-- The host variable `$s` that WAIT polls into (R82). -/
def waitVar : Nat := 0

/-- `WAIT` (R82): poll STATUS until BUSY = 0. -/
def waitLines : List HostLine :=
  [{ labels := [1], op := .mov waitVar (.rd .status) },
   (HostOp.bne (.bin .land (.var waitVar) (.lit 1)) (.lit 0) (.back 1)).line]

/-- A label written before the first of some lines, as before a macro (`loop: HFLIP ...`, 95_test_vectors.md P3). -/
def labelled (l : Nat) : List HostLine → List HostLine
  | [] => []
  | x :: rest => { x with labels := l :: x.labels } :: rest

/-- `HENC dst, src, n` (R83). -/
def hencLines (dst src n : Expr) : List HostLine :=
  [(HostOp.wr .dstAddr dst).line, (HostOp.wr .srcAddr src).line, (HostOp.wr .count n).line, cmdLine .encode] ++ waitLines

/-- `HDEC dst, src, c` (R83). -/
def hdecLines (dst src c : Expr) : List HostLine :=
  [(HostOp.wr .dstAddr dst).line, (HostOp.wr .srcAddr src).line, (HostOp.wr .count c).line, cmdLine .decode] ++ waitLines

/-- `HCOR dst, src, c` (R83). -/
def hcorLines (dst src c : Expr) : List HostLine :=
  [(HostOp.wr .dstAddr dst).line, (HostOp.wr .srcAddr src).line, (HostOp.wr .count c).line, cmdLine .correct] ++ waitLines

/-- `HGET buf, n` (R83). -/
def hgetLines (buf n : Expr) : List HostLine :=
  [(HostOp.wr .dstAddr buf).line, (HostOp.wr .count n).line, cmdLine .getBit] ++ waitLines ++ [(HostOp.rd .resBit).line]

/-- `HSET buf, n, v` (R83). -/
def hsetLines (buf n : Expr) (v : Bool) : List HostLine :=
  [(HostOp.wr .dstAddr buf).line, (HostOp.wr .count n).line, cmdLine (.setBit v)] ++ waitLines

/-- `HFLIP buf, n` (R83). -/
def hflipLines (buf n : Expr) : List HostLine :=
  [(HostOp.wr .dstAddr buf).line, (HostOp.wr .count n).line, cmdLine .flipBit] ++ waitLines

end Sys2Proof.Machine
end

