-- ==== Sys2Proof/Machine/State.lean ====
section
/-! DEFINITION. The machine's state as plain data (10_state.md R23 to R43), the reasons a step can stop, and the state after reset. -/

namespace Sys2Proof.Machine

/-- The hardware faults the block records in STATUS.FCODE (R171). Codes 6 to 15 are "never recorded", so they have no term (U8). -/
inductive FaultCode where
  | illegalCmd
  | countOverflow
  | range
  | overlap
  | cmdOverrun
  deriving DecidableEq, Repr

/-- A pending command with its latched operands, `(op, val, lat[DST_ADDR], lat[SRC_ADDR], lat[COUNT])` (R33). -/
structure Pending where
  cmd : Instr
  dst : Word
  src : Word
  cnt : Word
  deriving DecidableEq, Repr

/-- The model-fault mark: a set over the two reasons of R185. -/
structure Mark where
  hostRace : Bool
  busError : Bool
  deriving DecidableEq, Repr

/-- What the last host access returned to the host: nothing for a write, the word or byte read, or the
bus-error response of R186. The model's own field (log 15). -/
inductive Response where
  | wrote
  | word (w : Word)
  | byte (b : Byte)
  | busError
  deriving DecidableEq, Repr

/-- Who takes a step: the two agents of R20, or the reset input in their place (R200). -/
inductive Agent where
  | host
  | block
  | reset
  deriving DecidableEq, Repr

/-- Buffer memory (R41): address and byte pairs, strictly rising addresses (`Memory.wf`). An address that is not listed holds no value the model knows. -/
abbrev Memory := List Host.Cell

/-- The whole state. -/
structure State where
  /-- The parameters of R8; no step changes them (log 1). -/
  cfg : Config
  /-- DST_ADDR (R29). -/
  dstAddr : Word
  /-- SRC_ADDR (R30). -/
  srcAddr : Word
  /-- COUNT (R31). -/
  count : Word
  /-- RES_COUNT (R34). -/
  resCount : Word
  /-- RES_SYND (R35). -/
  resSynd : Word
  /-- RES_BIT, bit 0 (R36). -/
  resBit : BitVec 1
  /-- STATUS.FAULT and STATUS.FCODE: `none` is FAULT = 0 with FCODE = 0 (R25, R27, R28; log 14). -/
  fault : Option FaultCode
  /-- The pending command; STATUS.BUSY is 1 exactly when there is one (R26, R33; log 14). -/
  pending : Option Pending
  /-- Buffer memory (R41). -/
  mem : Memory
  /-- The model-fault mark (R185). -/
  mark : Mark
  /-- Bytes the host touched in the pending command's footprint (R63, R187; log 8). The model's own. -/
  raced : List Nat
  /-- How many free values have been drawn (log 6). The model's own. -/
  draws : Nat
  /-- What the last host access returned (log 15). The model's own. -/
  response : Option Response
  /-- The host agent's program (R80, R84; log 4). -/
  hostProg : List HostLine
  /-- The line the host executes next. -/
  hostPc : Nat
  /-- The host's variables that have been written, newest first (R84). -/
  hostVars : List (Nat × Int)
  /-- What the reads of the line in progress have returned, oldest first: each read is an event of its own (R179; log 16). -/
  hostReads : List Int
  /-- An ASSERT has failed and stopped the host program (R84). -/
  hostFailed : Bool
  /-- Who takes the next steps; when it is empty the block moves if it has a command, else the host (R213; log 2). The model's own. -/
  schedule : List Agent
  deriving DecidableEq, Repr

/-- Why the machine stops with a fault. -/
inductive Fault where
  /-- A buffer-memory access at an address that R50 says does not exist, `>= MEM_BYTES` or negative: a host byte
  access there, or the completion of a pending command whose footprint leaves memory, which the issue checks of R178 rule
  out in every run. Safe: the machine stops where the spec gives nothing. -/
  | noSuchByte
  deriving DecidableEq, Repr

/-- Why a step is refused. -/
inductive Refusal where
  /-- An instruction without a meaning: raised by an arm of `exec` only. Safe. -/
  | notModelled (mnemonic : String)
  /-- A host bus access none of whose bytes lies in the register window: another device answers it, of which
  the spec says nothing. Raised by the host agent's bus accesses. Safe. -/
  | notThisBlock
  deriving DecidableEq, Repr

/-- The state at power-on (R43, R200, R203) under the example configuration (R8): every register 0, no pending
command, memory with nothing listed, the mark empty, no host program loaded and no schedule chosen (log 2, log 4, log 6). -/
def State.reset : State :=
  { cfg := Config.exampleCfg
    dstAddr := 0
    srcAddr := 0
    count := 0
    resCount := 0
    resSynd := 0
    resBit := 0
    fault := none
    pending := none
    mem := []
    mark := { hostRace := false, busError := false }
    raced := []
    draws := 0
    response := none
    hostProg := []
    hostPc := 0
    hostVars := []
    hostReads := []
    hostFailed := false
    schedule := [] }

end Sys2Proof.Machine
end

