-- ==== Sys2Proof/Machine/Ops.lean ====
section
/-! DEFINITION. The operations over memory and registers that every instruction shares: byte and bit access to
buffer memory (20_memory.md R51, R55; 00_scope.md R13), the width rule of the narrow registers (10_state.md R32),
free draws, raising a hardware fault (60_exceptions.md R176), and retiring a command (10_state.md R33).
There is no return from a fault (R183): only reset clears it (`State.clearRegisters`). -/

namespace Sys2Proof.Machine

/-- The byte listed at an address, if one is. -/
def Memory.get? : Memory → Nat → Option Byte
  | [], _ => none
  | (k, v) :: rest, a => if a = k then some v else Memory.get? rest a

/-- `MemRead(a, 1)`. What an unlisted address reads as: its power-on byte, a free value (R203; log 5). -/
def Memory.read (m : Memory) (a : Nat) : Byte := (Memory.get? m a).getD (Config.powerOnByte a)

/-- `MemWrite(a, 1, v)`; keeps the addresses strictly rising. -/
def Memory.write : Memory → Nat → Byte → Memory
  | [], a, b => [(a, b)]
  | (k, v) :: rest, a, b =>
    if a < k then (a, b) :: (k, v) :: rest
    else if a = k then (a, b) :: rest
    else (k, v) :: Memory.write rest a b

/-- Strictly rising addresses, none below `lo`. -/
def Memory.wfFrom : Nat → Memory → Bool
  | _, [] => true
  | lo, (k, _) :: rest => decide (lo ≤ k) && Memory.wfFrom (k + 1) rest

/-- The canonical form: strictly rising addresses. An unlisted address holds no value the model knows, so no
entry can equal it, and two memories that list the same bytes are the same list (log 5). -/
def Memory.wf (m : Memory) : Bool := Memory.wfFrom 0 m

/-- Every listed address lies in buffer memory (R41, R50). -/
def Memory.inside (memBytes : Nat) : Memory → Bool
  | [] => true
  | (k, _) :: rest => decide (k < memBytes) && Memory.inside memBytes rest

/-- `BitRead(base, i)` (R13, R51): bit `i mod 8` of byte `base + i div 8`. -/
def bitRead (m : Memory) (base i : Nat) : Bool := (Memory.read m (base + i / 8)).getLsbD (i % 8)

/-- A bit moved to bit position `k` of a byte. -/
def bitAt (b : Bool) (k : Nat) : Byte := BitVec.setWidth 8 (BitVec.ofBool b) <<< k

/-- `BitWrite(base, i, b)` (R13): a read and a write of one byte, its seven other bits as just read (R55). -/
def bitWrite (m : Memory) (base i : Nat) (b : Bool) : Memory :=
  Memory.write m (base + i / 8) ((Memory.read m (base + i / 8) &&& ~~~(bitAt true (i % 8))) ||| bitAt b (i % 8))

/-- `BitFlip(base, i)` (R13). -/
def bitFlip (m : Memory) (base i : Nat) : Memory :=
  Memory.write m (base + i / 8) (Memory.read m (base + i / 8) ^^^ bitAt true (i % 8))

/-- Write freely drawn bytes, the draws numbered from `k`, to a list of addresses. -/
def Memory.drawAll : List Nat → Nat → Memory → Memory
  | [], _, m => m
  | a :: rest, k, m => Memory.drawAll rest (k + 1) (Memory.write m a (Config.freeByte k))

/-- `v[w-1:0]`, zero-extended to 32 bits (R32). -/
def keepLow (w : Nat) (v : Word) : Word := BitVec.ofNat 32 (v.toNat % 2 ^ w)

/-- `raise Fault(code)` (R176): the first fault after reset is recorded, a later one is not. It saves nothing
else and goes nowhere (R182). -/
def State.raiseFault (c : FaultCode) (s : State) : State :=
  match s.fault with
  | none => { s with fault := some c }
  | some _ => s

/-- The end of a completion: the pending command becomes `none`, so BUSY is 0 (R33). -/
def State.retire (s : State) : State := { s with pending := none }

/-- Latch a command (R33): BUSY becomes 1. -/
def State.latch (p : Pending) (s : State) : State := { s with pending := some p }

/-- Replace buffer memory. -/
def State.setMem (m : Memory) (s : State) : State := { s with mem := m }

/-- `reg[RES_COUNT] <- zext_32(n)`. -/
def State.setResCount (n : Nat) (s : State) : State := { s with resCount := BitVec.ofNat 32 n }

/-- `reg[RES_SYND] <- zext_32(n)`. -/
def State.setResSynd (n : Nat) (s : State) : State := { s with resSynd := BitVec.ofNat 32 n }

/-- `reg[RES_BIT] <- zext_32(b)`. -/
def State.setResBit (b : Bool) (s : State) : State := { s with resBit := BitVec.ofBool b }

/-- What the host gets back from an access (log 15). -/
def State.respond (r : Response) (s : State) : State := { s with response := some r }

/-- Count `k` more free draws (log 6). -/
def State.drew (k : Nat) (s : State) : State := { s with draws := s.draws + k }

/-- The register part of a reset event (R201). The mark, the configuration, buffer memory and the host agent are not touched. -/
def State.clearRegisters (s : State) : State :=
  { s with
    dstAddr := 0, srcAddr := 0, count := 0, resCount := 0, resSynd := 0, resBit := 0
    fault := none, pending := none }

/-- Go on with a next state, or stop as the first part stopped. -/
def andThen {σ τ : Type} (o : Host.Outcome σ Fault Refusal) (f : σ → Host.Outcome τ Fault Refusal) :
    Host.Outcome τ Fault Refusal :=
  match o with
  | .next s => f s
  | .fault r => .fault r
  | .refused r => .refused r

end Sys2Proof.Machine
end

