-- ==== Sys2Proof/Machine/Flags.lean ====
section
/-! DEFINITION. The flags: STATUS.BUSY, STATUS.FAULT and STATUS.FCODE (10_state.md R25 to R28), the only ones
the block has (R39). They are computed from the pending command and the recorded fault (log 14). -/

namespace Sys2Proof.Machine

/-- STATUS.BUSY (R26): 1 exactly while a command is latched and not complete (R33). -/
def State.busy (s : State) : Bool := s.pending.isSome

/-- STATUS.FAULT (R27). -/
def State.faulted (s : State) : Bool := s.fault.isSome

/-- The code of a fault (R171). -/
def FaultCode.code : FaultCode → BitVec 4
  | .illegalCmd => 1
  | .countOverflow => 2
  | .range => 3
  | .overlap => 4
  | .cmdOverrun => 5

/-- STATUS.FCODE (R28): 0 when FAULT = 0. -/
def State.fcode (s : State) : BitVec 4 :=
  match s.fault with
  | none => 0
  | some c => c.code

/-- The STATUS word (R25): FCODE in bits 7:4, FAULT in bit 1, BUSY in bit 0, every other bit 0. -/
def State.statusWord (s : State) : Word :=
  (((0#24 ++ s.fcode) ++ 0#2) ++ BitVec.ofBool s.faulted) ++ BitVec.ofBool s.busy

/-- The model-fault mark is empty (R185). -/
def Mark.isEmpty (k : Mark) : Bool := !k.hostRace && !k.busError

end Sys2Proof.Machine
end

