-- ==== Sys2Proof/Machine/Hamming.lean ====
section
/-! DEFINITION. The helper functions of 00_scope.md R13 and R14, on unbounded naturals (R12). -/

namespace Sys2Proof.Machine

/-- R13: `p >= 1 and (p and (p - 1)) = 0`. -/
def isPow2 (p : Nat) : Bool := decide (1 ≤ p) && decide (p &&& (p - 1) = 0)

/-- R13: a parity position. -/
def parityPos (p : Nat) : Bool := isPow2 p

/-- R13: a data position. -/
def dataPos (p : Nat) : Bool := decide (1 ≤ p) && !isPow2 p

/-- R13: the least `k` with `2^k >= s`. -/
def clog2 (s : Nat) : Nat := if s ≤ 1 then 0 else Nat.log2 (s - 1) + 1

/-- R13: the number of parity positions in `[1, c]`, in R13's closed form. -/
def nPar (c : Nat) : Nat := if c = 0 then 0 else Nat.log2 c + 1

/-- R13: the number of data positions in `[1, c]`. -/
def nData (c : Nat) : Nat := c - nPar c

/-- The least `r' >= r` with `2^r' >= n + r' + 1`, searched upwards with fuel. -/
def leastParity (n : Nat) : (fuel r : Nat) → Nat
  | 0, r => r
  | fuel + 1, r => if n + r + 1 ≤ 2 ^ r then r else leastParity n fuel (r + 1)

/-- R14: the `r` of `Lenc(n) = n + r`; it is at most `floor(log2 n) + 2`. -/
def parityCount (n : Nat) : Nat := leastParity n (Nat.log2 n + 2) 0

/-- `Lenc(n)` of R13, in the form of R14. -/
def lenc (n : Nat) : Nat := n + parityCount n

/-- The XOR of the 1-based positions `p` in `[1, c]` whose 0-based index `p - 1` satisfies `f`; empty, it is 0 (R132). -/
def xorPositions (f : Nat → Bool) : Nat → Nat
  | 0 => 0
  | c + 1 => if f c then xorPositions f c ^^^ (c + 1) else xorPositions f c

/-- R13: bytes that hold bits `[0, b)`. -/
def nbytes (b : Nat) : Nat := (b + 7) / 8

end Sys2Proof.Machine
end

