-- ==== Sys2Proof/Machine/Operands.lean ====
section
/-! DEFINITION. A command's operands: the byte ranges it reads and writes (20_memory.md R60), the issue checks
over them (60_exceptions.md R172 to R174, R178, R179), and what is latched (10_state.md R33). -/

namespace Sys2Proof.Machine

/-- The bytes `[base, base + len)`. -/
structure ByteRange where
  base : Nat
  len : Nat
  deriving DecidableEq, Repr

/-- An address lies in a range. -/
def ByteRange.has (r : ByteRange) (a : Nat) : Bool := decide (r.base ≤ a) && decide (a < r.base + r.len)

/-- A range has a byte `>= memBytes` (R173); an empty one never has. Addresses do not wrap (R57). -/
def ByteRange.leaves (r : ByteRange) (memBytes : Nat) : Bool :=
  decide (0 < r.len) && decide (memBytes < r.base + r.len)

/-- Two ranges share a byte (R174). -/
def ByteRange.meets (r t : ByteRange) : Bool :=
  decide (0 < r.len) && decide (0 < t.len) && decide (r.base < t.base + t.len) && decide (t.base < r.base + r.len)

/-- The addresses of a range, ascending. -/
def ByteRange.addresses (r : ByteRange) : List Nat := List.range' r.base r.len

/-- The bit count of a command's input, from COUNT: none for the bit commands (R60). -/
def inBits (i : Instr) (cnt : Nat) : Nat :=
  match i with
  | .encode => cnt
  | .decode => cnt
  | .correct => cnt
  | .getBit => 0
  | .setBit _ => 0
  | .flipBit => 0

/-- Input bytes of a command (R60). -/
def inBytes (i : Instr) (src cnt : Nat) : ByteRange := { base := src, len := nbytes (inBits i cnt) }

/-- Output bytes of a command (R60). GET_BIT's one byte stands in this column too, "read only". -/
def outBytes (i : Instr) (dst cnt : Nat) : ByteRange :=
  match i with
  | .encode => { base := dst, len := nbytes (lenc cnt) }
  | .decode => { base := dst, len := nbytes (nData cnt) }
  | .correct => { base := dst, len := nbytes (nData cnt) }
  | .getBit => { base := dst + cnt / 8, len := 1 }
  | .setBit _ => { base := dst + cnt / 8, len := 1 }
  | .flipBit => { base := dst + cnt / 8, len := 1 }

/-- Input bytes of a pending command. -/
def Pending.inBytes (p : Pending) : ByteRange := Sys2Proof.Machine.inBytes p.cmd p.src.toNat p.cnt.toNat

/-- Output bytes of a pending command. -/
def Pending.outBytes (p : Pending) : ByteRange := Sys2Proof.Machine.outBytes p.cmd p.dst.toNat p.cnt.toNat

/-- The footprint of a pending command (R60): the union of the two ranges. -/
def Pending.touches (p : Pending) (a : Nat) : Bool := p.inBytes.has a || p.outBytes.has a

/-- COUNT_OVERFLOW (R172): an ENCODE whose length does not fit in CNT_W bits. -/
def Pending.overflows (c : Config) (p : Pending) : Bool :=
  match p.cmd with
  | .encode => decide (2 ^ c.cntW - 1 < lenc p.cnt.toNat)
  | .decode => false
  | .correct => false
  | .getBit => false
  | .setBit _ => false
  | .flipBit => false

/-- RANGE (R173): a footprint byte outside buffer memory. -/
def Pending.leavesMemory (c : Config) (p : Pending) : Bool :=
  p.inBytes.leaves c.memBytes || p.outBytes.leaves c.memBytes

/-- OVERLAP (R174): input and output share a byte. The bit commands have no input, so they never do. -/
def Pending.overlaps (p : Pending) : Bool := p.inBytes.meets p.outBytes

/-- The first issue check that fails, in the order of R178 and R179. -/
def Pending.issueFault (c : Config) (p : Pending) : Option FaultCode :=
  if p.overflows c then some .countOverflow
  else if p.leavesMemory c then some .range
  else if p.overlaps then some .overlap
  else none

/-- The tuple an issue latches (R33): the command and the three operand registers as they are now. -/
def State.operands (i : Instr) (s : State) : Pending :=
  { cmd := i, dst := s.dstAddr, src := s.srcAddr, cnt := s.count }

end Sys2Proof.Machine
end

