-- ==== Sys2Proof/Machine/Command.lean ====
section
/-! DEFINITION. What the six commands share: the issue event after decoding (60_exceptions.md R178), the
frame of the completion step (10_state.md R33), and the reset event (70_reset_and_hazards.md R200 to R203). -/

namespace Sys2Proof.Machine

/-- The part of R178 that follows decoding, for a block that is not busy: ignored while FAULT = 1; the checks in
order; else latch. A check that fails suppresses the command as a whole (R177). -/
def issue (i : Instr) (s : State) : State :=
  match s.fault with
  | some _ => s
  | none =>
    match (s.operands i).issueFault s.cfg with
    | some c => s.raiseFault c
    | none => s.latch (s.operands i)

/-- The completion step (R33): the command's rule on the latched operands, then the command is retired. A
footprint outside memory, which the issue checks rule out in every run, names bytes that do not exist (log 11). -/
def complete (p : Pending) (body : Pending → State → State) (s : State) : Host.Outcome State Fault Refusal :=
  if p.leavesMemory s.cfg then .fault .noSuchByte else .next (body p s).retire

/-- A command's two events (log 3). With no command pending it is the CMD write of `i`, already decoded; with `i`
pending it is its completion; with another command pending it is a CMD write while BUSY = 1, CMD_OVERRUN (R180; log 13). -/
def runCommand (i : Instr) (body : Pending → State → State) (s : State) : Host.Outcome State Fault Refusal :=
  match s.pending with
  | none => .next (issue i s)
  | some p => if p.cmd = i then complete p body s else .next (s.raiseFault .cmdOverrun)

/-- The bytes a reset leaves unspecified: the output bytes of the command it abandons (R202; for GET_BIT, log 12). -/
def abandonedBytes (s : State) : List Nat :=
  match s.pending with
  | none => []
  | some p => p.outBytes.addresses.filter (fun a => decide (a < s.cfg.memBytes))

/-- A reset event (R201, R202, R203). It leaves the model-fault mark (R185), the rest of memory and the host agent as they are (log 17). -/
def resetEvent (s : State) : State :=
  { s.clearRegisters with
    mem := Memory.drawAll (abandonedBytes s) s.draws s.mem
    draws := s.draws + (abandonedBytes s).length
    raced := [] }

/-- After a completion, the bytes the host touched while the command was pending hold no defined value: each is drawn (R63, R187; log 8). -/
def settleRaces (s : State) : State :=
  { s with
    mem := Memory.drawAll s.raced s.draws s.mem
    draws := s.draws + s.raced.length
    raced := [] }

end Sys2Proof.Machine
end

