-- ==== Sys2Proof/Machine/BitAccess.lean ====
section
/-! DEFINITION. GET_BIT, SET_BIT and FLIP_BIT (40_bit_access.md R90 to R98). -/

namespace Sys2Proof.Machine

/-- The rule of R91. -/
def getBitBody (p : Pending) (s : State) : State := s.setResBit (bitRead s.mem p.dst.toNat p.cnt.toNat)

/-- The rule of R93. -/
def setBitBody (v : Bool) (p : Pending) (s : State) : State := s.setMem (bitWrite s.mem p.dst.toNat p.cnt.toNat v)

/-- The rule of R95. -/
def flipBitBody (p : Pending) (s : State) : State := s.setMem (bitFlip s.mem p.dst.toNat p.cnt.toNat)

/-- GET_BIT (R91, R92). -/
def execGetBit (s : State) : Host.Outcome State Fault Refusal := runCommand .getBit getBitBody s

/-- SET_BIT (R93, R94). -/
def execSetBit (v : Bool) (s : State) : Host.Outcome State Fault Refusal := runCommand (.setBit v) (setBitBody v) s

/-- FLIP_BIT (R95, R96). -/
def execFlipBit (s : State) : Host.Outcome State Fault Refusal := runCommand .flipBit flipBitBody s

end Sys2Proof.Machine
end

