-- ==== Sys2Proof/Machine/Encoder.lean ====
section
/-! DEFINITION. ENCODE (41_encode.md R110 to R124). -/

namespace Sys2Proof.Machine

/-- What a walk over a codeword leaves: the memory, the syndrome accumulator `S`, and a bit count. -/
structure Walk where
  mem : Memory
  synd : Nat
  bits : Nat
  deriving DecidableEq, Repr

/-- The first loop of R114, `while j < n`: data bits go to data positions, parity slots are skipped. `i` is the
output index, `j` the input index, `acc` the accumulator `S`. -/
def encodeWalk (src dst n : Nat) : (fuel i j acc : Nat) → Memory → Walk
  | 0, i, _, acc, m => { mem := m, synd := acc, bits := i }
  | fuel + 1, i, j, acc, m =>
    if j < n then
      if dataPos (i + 1) then
        encodeWalk src dst n fuel (i + 1) (j + 1) (if bitRead m src j then acc ^^^ (i + 1) else acc)
          (bitWrite m dst i (bitRead m src j))
      else encodeWalk src dst n fuel (i + 1) j acc m
    else { mem := m, synd := acc, bits := i }

/-- The second loop of R114, `while 2^k - 1 < L`: parity index `2^k - 1` receives bit `k` of the accumulator. -/
def parityPass (dst len acc : Nat) : (fuel k : Nat) → Memory → Memory
  | 0, _, m => m
  | fuel + 1, k, m =>
    if 2 ^ k - 1 < len then parityPass dst len acc fuel (k + 1) (bitWrite m dst (2 ^ k - 1) (acc.testBit k)) else m

/-- The first loop from its start. It makes `Lenc(n)` rounds (R114: "L = Lenc(n)"), and that is its fuel. -/
def encodeData (m : Memory) (src dst n : Nat) : Walk := encodeWalk src dst n (lenc n) 0 0 0 m

/-- Both loops. The second makes `nPar(L)` rounds (R117), and that is its fuel. -/
def encodeRun (m : Memory) (src dst n : Nat) : Walk :=
  { encodeData m src dst n with
    mem := parityPass dst (encodeData m src dst n).bits (encodeData m src dst n).synd
      (nPar (encodeData m src dst n).bits) 0 (encodeData m src dst n).mem }

/-- The rule of R114, R119. -/
def encodeBody (p : Pending) (s : State) : State :=
  (s.setMem (encodeRun s.mem p.src.toNat p.dst.toNat p.cnt.toNat).mem).setResCount
    (encodeRun s.mem p.src.toNat p.dst.toNat p.cnt.toNat).bits

/-- ENCODE (R114). -/
def execEncode (s : State) : Host.Outcome State Fault Refusal := runCommand .encode encodeBody s

end Sys2Proof.Machine
end

