-- ==== Sys2Proof/Machine/Decoder.lean ====
section
/-! DEFINITION. DECODE (42_decode.md R130 to R143). -/

namespace Sys2Proof.Machine

/-- The loop of R131 over the next `left` codeword bits from index `i`: every set bit enters the syndrome, every
data position is copied to the next output slot `k`. -/
def decodeWalk (src dst : Nat) : (left i k acc : Nat) → Memory → Walk
  | 0, _, k, acc, m => { mem := m, synd := acc, bits := k }
  | left + 1, i, k, acc, m =>
    if dataPos (i + 1) then
      decodeWalk src dst left (i + 1) (k + 1) (if bitRead m src i then acc ^^^ (i + 1) else acc)
        (bitWrite m dst k (bitRead m src i))
    else decodeWalk src dst left (i + 1) k (if bitRead m src i then acc ^^^ (i + 1) else acc) m

/-- The body of DECODE on a `c`-bit codeword (R131), its two register writes left to the command. -/
def decodeRun (m : Memory) (src dst c : Nat) : Walk := decodeWalk src dst c 0 0 0 m

/-- The rule of R131, R135. -/
def decodeBody (p : Pending) (s : State) : State :=
  ((s.setMem (decodeRun s.mem p.src.toNat p.dst.toNat p.cnt.toNat).mem).setResCount
    (decodeRun s.mem p.src.toNat p.dst.toNat p.cnt.toNat).bits).setResSynd
    (decodeRun s.mem p.src.toNat p.dst.toNat p.cnt.toNat).synd

/-- DECODE (R131). -/
def execDecode (s : State) : Host.Outcome State Fault Refusal := runCommand .decode decodeBody s

end Sys2Proof.Machine
end

