-- ==== Sys2Proof/Machine/Corrector.lean ====
section
/-! DEFINITION. CORRECT (43_correct.md R150 to R162). -/

namespace Sys2Proof.Machine

/-- The test of R152: the syndrome points at a data position of the codeword (R153, R154, R155). -/
def correctable (synd c : Nat) : Bool := decide (synd ≠ 0) && !isPow2 synd && decide (synd ≤ c)

/-- The flip of R152: index `S - k - 1` of the data-only output, `k = clog2(S)`. -/
def correctFlip (dst c : Nat) (w : Walk) : Memory :=
  if correctable w.synd c then bitFlip w.mem dst (w.synd - clog2 w.synd - 1) else w.mem

/-- R152: the body of DECODE, then the flip. -/
def correctRun (m : Memory) (src dst c : Nat) : Walk :=
  { decodeRun m src dst c with mem := correctFlip dst c (decodeRun m src dst c) }

/-- The rule of R152, R157. -/
def correctBody (p : Pending) (s : State) : State :=
  ((s.setMem (correctRun s.mem p.src.toNat p.dst.toNat p.cnt.toNat).mem).setResCount
    (correctRun s.mem p.src.toNat p.dst.toNat p.cnt.toNat).bits).setResSynd
    (correctRun s.mem p.src.toNat p.dst.toNat p.cnt.toNat).synd

/-- CORRECT (R152). -/
def execCorrect (s : State) : Host.Outcome State Fault Refusal := runCommand .correct correctBody s

end Sys2Proof.Machine
end

