-- ==== Sys2Proof/Machine/Dispatch.lean ====
section
/-! DEFINITION. One arm per command. -/

namespace Sys2Proof.Machine

def exec (i : Instr) (s : State) : Host.Outcome State Fault Refusal :=
  match i with
  | .encode => Sys2Proof.Machine.execEncode s
  | .decode => Sys2Proof.Machine.execDecode s
  | .correct => Sys2Proof.Machine.execCorrect s
  | .getBit => Sys2Proof.Machine.execGetBit s
  | .setBit v => Sys2Proof.Machine.execSetBit v s
  | .flipBit => Sys2Proof.Machine.execFlipBit s

end Sys2Proof.Machine
end

