-- ==== Sys2Proof/Machine/Bus.lean ====
section
/-! DEFINITION. The host's accesses: the CMD write (60_exceptions.md R178), reads and writes of the register
window (10_state.md R23, R24, R32, R37; 60_exceptions.md R186), and byte accesses to buffer memory (20_memory.md R50, R62, R63). -/

namespace Sys2Proof.Machine

/-- A host write of a word to CMD (R178): ignored while FAULT = 1, CMD_OVERRUN while BUSY = 1 (the word is not
decoded, R180), else decoded; an illegal word raises ILLEGAL_CMD (R175), a command is issued. -/
def cmdWrite (w : Word) (s : State) : Host.Outcome State Fault Refusal :=
  match s.fault with
  | some _ => .next s
  | none =>
    match s.pending with
    | some _ => .next (s.raiseFault .cmdOverrun)
    | none =>
      match decode w with
      | .error _ => .next (s.raiseFault .illegalCmd)
      | .ok i => exec i s

/-- A host write of a 32-bit word to a register (R24, R32, R37). A write to a read-only register is ignored. -/
def writeReg (r : Reg) (v : Word) (s : State) : Host.Outcome State Fault Refusal :=
  match r with
  | .cmd => cmdWrite v s
  | .status => .next s
  | .dstAddr => .next { s with dstAddr := keepLow s.cfg.addrW v }
  | .srcAddr => .next { s with srcAddr := keepLow s.cfg.addrW v }
  | .count => .next { s with count := keepLow s.cfg.cntW v }
  | .resCount => .next s
  | .resSynd => .next s
  | .resBit => .next s

/-- A read of a result register: its value, or a free word while BUSY = 1 (R37, R207). -/
def readResult (v : Word) (s : State) : State × Word :=
  if s.busy then (s.drew 1, Config.freeWord s.draws) else (s, v)

/-- A host read of a register, and the word it returns (R24, R25, R37). -/
def readReg (r : Reg) (s : State) : State × Word :=
  match r with
  | .cmd => (s, 0)
  | .status => (s, s.statusWord)
  | .dstAddr => (s, s.dstAddr)
  | .srcAddr => (s, s.srcAddr)
  | .count => (s, s.count)
  | .resCount => readResult s.resCount s
  | .resSynd => readResult s.resSynd s
  | .resBit => readResult (BitVec.setWidth 32 s.resBit) s

/-- The register at an offset of the window (R23). -/
def Reg.atOffset (o : Nat) : Option Reg :=
  if o = 0x00 then some .cmd
  else if o = 0x04 then some .status
  else if o = 0x08 then some .dstAddr
  else if o = 0x0C then some .srcAddr
  else if o = 0x10 then some .count
  else if o = 0x14 then some .resCount
  else if o = 0x18 then some .resSynd
  else if o = 0x1C then some .resBit
  else none

/-- An access of `width` bytes at a bus address has a byte in the 32-byte window. -/
def touchesWindow (c : Config) (addr width : Nat) : Bool :=
  decide (addr < c.regBase + 32) && decide (c.regBase < addr + width) && decide (0 < width)

/-- The register an access reaches: only an aligned 32-bit word access reaches one (R186). -/
def accessedReg (c : Config) (addr width : Nat) : Option Reg :=
  if width = 4 ∧ c.regBase ≤ addr then Reg.atOffset (addr - c.regBase) else none

/-- A bus-error response (R186): the mark grows, no state of the block changes. -/
def State.busErrorResponse (s : State) : State :=
  { s with mark := { s.mark with busError := true }, response := some .busError }

/-- A host write on the bus (R186). Wholly outside the window it is another device's (log 10). -/
def busWrite (addr width : Nat) (data : Word) (s : State) : Host.Outcome State Fault Refusal :=
  match accessedReg s.cfg addr width with
  | some r => writeReg r data (s.respond .wrote)
  | none => if touchesWindow s.cfg addr width then .next s.busErrorResponse else .refused .notThisBlock

/-- A host read on the bus (R186). -/
def busRead (addr width : Nat) (s : State) : Host.Outcome State Fault Refusal :=
  match accessedReg s.cfg addr width with
  | some r => .next ((readReg r s).1.respond (.word (readReg r s).2))
  | none => if touchesWindow s.cfg addr width then .next s.busErrorResponse else .refused .notThisBlock

/-- The byte lies in the footprint of the pending command (R63). -/
def State.inFootprint (s : State) (a : Nat) : Bool :=
  match s.pending with
  | none => false
  | some p => p.touches a

/-- A host access to a byte of the pending command's footprint while BUSY = 1: HostRace is recorded, the byte is
drawn now, and drawn again when the command completes (R63, R187; log 8). -/
def State.race (a : Nat) (s : State) : State :=
  { s with
    mark := { s.mark with hostRace := true }
    mem := Memory.write s.mem a (Config.freeByte s.draws)
    raced := if a ∈ s.raced then s.raced else a :: s.raced
    draws := s.draws + 1 }

/-- A host byte write, `SB` (R50, R62(d), R63). -/
def hostStoreByte (a : Nat) (b : Byte) (s : State) : Host.Outcome State Fault Refusal :=
  if s.cfg.memBytes ≤ a then .fault .noSuchByte
  else if s.inFootprint a then .next ((s.race a).respond .wrote)
  else .next ((s.setMem (Memory.write s.mem a b)).respond .wrote)

/-- A host byte read, `LB` (R50, R62(d), R63), and the byte it returns. -/
def readByte (a : Nat) (s : State) : Host.Outcome (State × Byte) Fault Refusal :=
  if s.cfg.memBytes ≤ a then .fault .noSuchByte
  else if s.inFootprint a then .next ((s.race a).drew 1, Config.freeByte (s.race a).draws)
  else .next (s, Memory.read s.mem a)

end Sys2Proof.Machine
end

