-- ==== Sys2Proof/Machine/Agents.lean ====
section
/-! DEFINITION. One step of each agent (10_state.md R20): the host makes the next access of its program
(30_encoding.md R80, R84), the block completes its pending command (10_state.md R33), the reset input resets the block (70_reset_and_hazards.md R200). -/

namespace Sys2Proof.Machine

/-- The value of a host variable (R84): the one written last, or a free one if none has been (log 23). -/
def lookupVar : List (Nat × Int) → Nat → Int
  | [], x => Config.unwrittenVar x
  | (y, v) :: rest, x => if x = y then v else lookupVar rest x

/-- Write a host variable. -/
def State.setVar (x : Nat) (v : Int) (s : State) : State :=
  { s with hostVars := (x, v) :: s.hostVars.filter (fun e => decide (e.1 ≠ x)) }

/-- A read that an expression makes (R84). -/
inductive HostRead where
  | reg (r : Reg)
  | byte (a : Int)
  deriving DecidableEq, Repr

/-- How far an evaluation comes with the values read so far: to a value, with the reads it did not use, or to a read
that has not been made. -/
inductive Eval (τ : Type) where
  | done (v : τ) (rest : List Int)
  | needs (a : HostRead)
  deriving DecidableEq, Repr

/-- Go on with the value and the reads left, or wait for the read the first part waits for. -/
def Eval.bind {σ τ : Type} (x : Eval σ) (f : σ → List Int → Eval τ) : Eval τ :=
  match x with
  | .done v rest => f v rest
  | .needs a => .needs a

/-- The value of a read: the next one made, or a read still to make. -/
def takeRead (a : HostRead) (reads : List Int) : Eval Int :=
  match reads with
  | v :: rest => .done v rest
  | [] => .needs a

/-- Evaluate an expression with the values its reads have returned, its parts from left to right (log 16). -/
def Expr.eval (vars : List (Nat × Int)) : Expr → List Int → Eval Int
  | .lit n, reads => .done n reads
  | .var x, reads => .done (lookupVar vars x) reads
  | .bin op a b, reads =>
    (a.eval vars reads).bind (fun m r => (b.eval vars r).bind (fun n r' => .done (op.apply m n) r'))
  | .rd r, reads => takeRead (.reg r) reads
  | .lb e, reads => (e.eval vars reads).bind (fun a r => takeRead (.byte a) r)

/-- The two expressions of a line; a missing one is 0. `ADD $x, e` reads `$x` too (R84). -/
def HostOp.operands : HostOp → Expr × Expr
  | .wr _ v => (v, .lit 0)
  | .rd r => (.rd r, .lit 0)
  | .sb addr v => (addr, v)
  | .lb addr => (.lb addr, .lit 0)
  | .busWrite _ _ _ => (.lit 0, .lit 0)
  | .busRead _ _ => (.lit 0, .lit 0)
  | .mov _ v => (v, .lit 0)
  | .add x v => (.var x, v)
  | .blt a b _ => (a, b)
  | .bne a b _ => (a, b)
  | .assert a _ b => (a, b)

/-- A line's two values, the first expression evaluated before the second (log 16). -/
def HostOp.values (op : HostOp) (vars : List (Nat × Int)) (reads : List Int) : Eval (Int × Int) :=
  (op.operands.1.eval vars reads).bind (fun m r => (op.operands.2.eval vars r).bind (fun n r' => .done (m, n) r'))

/-- Make a read, and the value it returns. A negative address names no byte (R50; log 11). -/
def hostRead (a : HostRead) (s : State) : Host.Outcome (State × Int) Fault Refusal :=
  match a with
  | .reg r => .next ((readReg r s).1.respond (.word (readReg r s).2), (readReg r s).2.toNat)
  | .byte b =>
    if b < 0 then .fault .noSuchByte
    else andThen (readByte b.toNat s) (fun r => .next (r.1.respond (.byte r.2), r.2.toNat))

/-- The index of the first line with a label, counted from `k`. R84 says only "branches to label L": that the first
of several lines with the label is meant is the model's, DESIGN CHOICE (log 16). -/
def firstLabel (l : Nat) : (k : Nat) → List HostLine → Option Nat
  | _, [] => none
  | k, x :: rest => if l ∈ x.labels then some k else firstLabel l (k + 1) rest

/-- The index of the last line with a label, counted from `k`, or `best` if there is none. -/
def lastLabel (l : Nat) : (k : Nat) → (best : Option Nat) → List HostLine → Option Nat
  | _, best, [] => best
  | k, best, x :: rest => lastLabel l (k + 1) (if l ∈ x.labels then some k else best) rest

/-- The line a branch at line `at_` goes to (R84). -/
def Target.resolve (prog : List HostLine) (at_ : Nat) : Target → Option Nat
  | .named l => firstLabel l 0 prog
  | .back l => lastLabel l 0 none (prog.take (at_ + 1))

/-- A branch of the line `at_` (R84): to the label if taken, else on. R84 gives a branch to a label that no line
carries no target: it goes to a free line (log 23). -/
def hostBranch (taken : Bool) (t : Target) (at_ : Nat) (s : State) : State :=
  if taken then
    match t.resolve s.hostProg at_ with
    | some k => { s with hostPc := k }
    | none => { s.drew 1 with hostPc := Config.freeLine s.draws }
  else s

/-- The imm32 of a value (R80), and a free word for an integer that is none (log 23). -/
def hostImm32 (v : Int) (s : State) : State × Word :=
  if 0 ≤ v ∧ v < 2 ^ 32 then (s, BitVec.ofNat 32 v.toNat) else (s.drew 1, Config.freeWord s.draws)

/-- The imm8 of a value (R80), and a free byte for an integer that is none (log 23). -/
def hostImm8 (v : Int) (s : State) : State × Byte :=
  if 0 ≤ v ∧ v < 2 ^ 8 then (s, BitVec.ofNat 8 v.toNat) else (s.drew 1, Config.freeByte s.draws)

/-- An ASSERT condition (R84). -/
def Cmp.holds : Cmp → Int → Int → Bool
  | .eq, a, b => decide (a = b)
  | .ne, a, b => decide (a ≠ b)
  | .lt, a, b => decide (a < b)
  | .le, a, b => decide (a ≤ b)

/-- `WR <reg>, <imm32>` as its bus encoding `(REG_BASE + offset, imm32)` (R80). -/
def hostWriteReg (r : Reg) (v : Int) (s : State) : Host.Outcome State Fault Refusal :=
  busWrite (s.cfg.regBase + r.offset) 4 (hostImm32 v s).2 (hostImm32 v s).1

/-- `SB <addr>, <imm8>` (R80). A negative address names no byte (R50; log 11). -/
def hostStore (a v : Int) (s : State) : Host.Outcome State Fault Refusal :=
  if a < 0 then .fault .noSuchByte else hostStoreByte a.toNat (hostImm8 v s).2 (hostImm8 v s).1

/-- The line makes an access of its own, after the reads of its expressions. -/
def HostOp.accesses : HostOp → Bool
  | .wr _ _ => true
  | .rd _ => false
  | .sb _ _ => true
  | .lb _ => false
  | .busWrite _ _ _ => true
  | .busRead _ _ => true
  | .mov _ _ => false
  | .add _ _ => false
  | .blt _ _ _ => false
  | .bne _ _ _ => false
  | .assert _ _ _ => false

/-- What line `at_` does with its two values (R80, R84), in a state whose host already stands at the next line. -/
def hostFinish (op : HostOp) (m n : Int) (at_ : Nat) (s : State) : Host.Outcome State Fault Refusal :=
  match op with
  | .wr r _ => hostWriteReg r m s
  | .rd _ => .next s
  | .sb _ _ => hostStore m n s
  | .lb _ => .next s
  | .busWrite addr width data => busWrite addr width data s
  | .busRead addr width => busRead addr width s
  | .mov x _ => .next (s.setVar x m)
  | .add x _ => .next (s.setVar x (m + n))
  | .blt _ _ t => .next (hostBranch (decide (m < n)) t at_ s)
  | .bne _ _ t => .next (hostBranch (decide (m ≠ n)) t at_ s)
  | .assert _ c _ => .next (if c.holds m n then s else { s with hostFailed := true })

/-- The host leaves its line for the next one. -/
def State.endLine (s : State) : State := { s with hostPc := s.hostPc + 1, hostReads := [] }

/-- Remember what a read of the line in progress returned. -/
def State.noteRead (v : Int) (s : State) : State := { s with hostReads := s.hostReads ++ [v] }

/-- After a read of a line that makes no access of its own: end the line if it needs no further read. -/
def hostAfterRead (op : HostOp) (s : State) : Host.Outcome State Fault Refusal :=
  match op.values s.hostVars s.hostReads with
  | .done v _ => hostFinish op v.1 v.2 s.hostPc s.endLine
  | .needs _ => .next s

/-- One step of a line, which makes one access if the line has one to make: the line's next read, or, when its
values are there, its own effect (R179: "each host access and each block completion is a separate event"; log 16). -/
def hostLine (op : HostOp) (s : State) : Host.Outcome State Fault Refusal :=
  match op.values s.hostVars s.hostReads with
  | .done v _ => hostFinish op v.1 v.2 s.hostPc s.endLine
  | .needs a =>
    andThen (hostRead a s) (fun r =>
      if op.accesses then .next (r.1.noteRead r.2) else hostAfterRead op (r.1.noteRead r.2))

/-- The host's step: its line, or nothing when its program has ended or an ASSERT has stopped it (R84, R214; log 21). -/
def hostStep (s : State) : Host.Outcome State Fault Refusal :=
  if s.hostFailed then .next s
  else
    match s.hostProg[s.hostPc]? with
    | none => .next s
    | some l => hostLine l.op s

/-- The block's step: the completion of the pending command (R33), then the races with it are settled; an idle
block keeps all state (R193; log 21). -/
def blockStep (s : State) : Host.Outcome State Fault Refusal :=
  match s.pending with
  | none => .next s
  | some p => andThen (exec p.cmd s) (fun t => .next (settleRaces t))

/-- One step of an agent. -/
def agentStep (a : Agent) (s : State) : Host.Outcome State Fault Refusal :=
  match a with
  | .host => hostStep s
  | .block => blockStep s
  | .reset => .next (resetEvent s)

/-- Who moves when the schedule says nothing: the block if it has a command (the weak fairness of R213), else the host. -/
def State.defaultAgent (s : State) : Agent := if s.busy then .block else .host

end Sys2Proof.Machine
end

