-- ==== Sys2Proof/Machine/Step.lean ====
section
/-! DEFINITION. One step of the machine: the agent the schedule names takes one step (log 2). -/

namespace Sys2Proof.Machine

/-- One event: a host access, a completion or a reset (R179: "each host access and each block completion is a separate event"). -/
def step (s : State) : Host.Outcome State Fault Refusal :=
  match s.schedule with
  | [] => agentStep s.defaultAgent s
  | a :: rest => agentStep a { s with schedule := rest }

/-- The state in which the host's next access writes the word to CMD, to a block that accepts it, and the host
moves next: the block has no program counter (R22), and a command is fetched from that write (R24, R66). The
line goes in before the host's next one; a busy or faulted block would not decode it (R178), so both are cleared, and so is a line in progress (log 4). -/
def State.withFetchWord (s : State) (nbits w : Nat) : State :=
  { s with
    fault := none
    pending := none
    raced := []
    hostProg := s.hostProg.take s.hostPc ++
      (HostOp.busWrite (s.cfg.regBase + Reg.cmd.offset) 4 (BitVec.ofNat 32 (w % 2 ^ nbits))).line ::
        s.hostProg.drop s.hostPc
    hostPc := (s.hostProg.take s.hostPc).length
    hostReads := []
    hostFailed := false
    schedule := Agent.host :: s.schedule }

end Sys2Proof.Machine
end

