-- ==== Sys2Proof/Safety.lean ====
section
/-! DEFINITION. What counts as a safe run, in the terms claims use: the invariant of the machine, the empty
model-fault mark every claim takes as a premise (60_exceptions.md R185), and the end of a run (70_reset_and_hazards.md R214). -/

namespace Sys2Proof.Machine

/-- The latched operands lie in their registers' widths, and the command passed every issue check of R178. -/
def Pending.wellFormed (c : Config) (p : Pending) : Bool :=
  decide (p.dst.toNat < 2 ^ c.addrW) && decide (p.src.toNat < 2 ^ c.addrW) && decide (p.cnt.toNat < 2 ^ c.cntW) &&
    decide (p.issueFault c = none)

/-- The model-fault mark is empty: "A run with a nonempty mark says nothing about the chip" (R185). -/
def State.clean (s : State) : Bool := s.mark.isEmpty

/-- The invariant of the machine. -/
structure State.Inv (s : State) : Prop where
  /-- The parameters obey R8. -/
  cfgOk : s.cfg.wellFormed = true
  /-- Buffer memory keeps its canonical form. -/
  memWf : Memory.wf s.mem = true
  /-- Only addresses of buffer memory are listed (R50). -/
  memInside : Memory.inside s.cfg.memBytes s.mem = true
  /-- Bits [31:ADDR_W] of DST_ADDR read as 0 (R29). -/
  dstFits : s.dstAddr.toNat < 2 ^ s.cfg.addrW
  /-- Bits [31:ADDR_W] of SRC_ADDR read as 0 (R30). -/
  srcFits : s.srcAddr.toNat < 2 ^ s.cfg.addrW
  /-- Bits [31:CNT_W] of COUNT read as 0 (R31). -/
  countFits : s.count.toNat < 2 ^ s.cfg.cntW
  /-- Bits [31:CNT_W] of RES_COUNT read as 0 (R34). -/
  resCountFits : s.resCount.toNat < 2 ^ s.cfg.cntW
  /-- Bits [31:CNT_W] of RES_SYND read as 0 (R35). -/
  resSyndFits : s.resSynd.toNat < 2 ^ s.cfg.cntW
  /-- A pending command passed its issue checks (R33, R178). -/
  pendingOk : ∀ p, s.pending = some p → p.wellFormed s.cfg = true
  /-- Only CMD_OVERRUN can be recorded while a command is pending (R177, R180). -/
  pendingFault : s.pending.isSome = true → s.fault = none ∨ s.fault = some FaultCode.cmdOverrun
  /-- Raced bytes belong to a pending command, and a HostRace has been recorded (R187). -/
  racedMarked : s.raced ≠ [] → s.mark.hostRace = true ∧ s.pending.isSome = true
  /-- Raced bytes are bytes of buffer memory. -/
  racedInside : ∀ a ∈ s.raced, a < s.cfg.memBytes

/-- The agent that takes the next step. -/
def State.mover (s : State) : Agent := s.schedule.headD s.defaultAgent

/-- The host program has executed its last line, no command is pending and no model fault is recorded (R214). The
model takes the first condition as "the host stands past the last line and no ASSERT has failed": DESIGN CHOICE (log
22). So an empty program has executed its last line, and so has one whose branch to a missing label went past its end;
one whose last line branched back has not, nor has one that a failed ASSERT stopped, even on its last line. -/
def State.ended (s : State) : Bool :=
  decide (s.hostProg.length ≤ s.hostPc) && !s.hostFailed && !s.busy && s.clean

/-- A run that has ended without a hardware fault: "must assume STATUS.FAULT = 0 at its end as well" (R185). -/
def State.endedWithoutFault (s : State) : Bool := s.ended && !s.faulted

end Sys2Proof.Machine
end

