-- ==== Sys2Proof/Certificates/Slice0/Obligations.lean ====
section
/-! DEFINITION. The statements about the block. A rule R<n> is of spec/; "log <n>" is notes/assumptions/<n>.md,
and a clause that rests on one is the model's choice, not the spec's. -/

namespace Sys2Proof.Claims

open Sys2Proof.Machine

/-- Every footprint byte of a pending command is a byte of buffer memory: it passed the RANGE check (R173). -/
def InMemory (s : State) (p : Pending) : Prop := ∀ a, p.touches a = true → a < s.cfg.memBytes

/-- Input and output share no byte: the command passed the OVERLAP check (R174). -/
def NoOverlap (p : Pending) : Prop := ∀ a, p.inBytes.has a = true → p.outBytes.has a = false

/-- Bit `k` of the byte at address `a`. -/
def bitOf (m : Memory) (a k : Nat) : Bool := (Memory.read m a).getLsbD k

/-- Bit `y` of the buffer at `dst` is one that the command's rule writes (R91, R93, R95, R118, R136, R160). -/
def WritesBit (i : Instr) (cnt y : Nat) : Prop :=
  match i with
  | .encode => y < lenc cnt
  | .decode => y < nData cnt
  | .correct => y < nData cnt
  | .getBit => False
  | .setBit _ => y = cnt
  | .flipBit => y = cnt

/-- A state in which a command is about to complete, its checks passed (R33, R178). -/
def Ready (s : State) (p : Pending) (i : Instr) : Prop :=
  s.pending = some p ∧ p.cmd = i ∧ InMemory s p ∧ NoOverlap p

/-- How many 0-based indices below `c` satisfy `f`. -/
def countBelow (f : Nat → Bool) (c : Nat) : Nat := ((List.range c).filter f).length

/-- `v` is about to run `i` on the codeword that the ENCODE of `p` left in `t`, its bits inverted where `e` says. -/
def OnCodeword (i : Instr) (p : Pending) (t v : State) (q : Pending) (e : Nat → Bool) : Prop :=
  Ready v q i ∧ q.src = p.dst ∧ q.cnt.toNat = lenc p.cnt.toNat ∧
    ∀ y, y < lenc p.cnt.toNat → bitRead v.mem p.dst.toNat y = (bitRead t.mem p.dst.toNat y ^^ e y)

end Sys2Proof.Claims

section

open Sys2Proof Sys2Proof.Machine Sys2Proof.Claims

/-! ### Encoding -/

/-- R70, R72, R78: a word decodes to a command exactly when it is that command's word. -/
def Obligations.WordDecodesExactlyToTheCommandItEncodes : Prop :=
  ∀ (w : Word) (i : Instr), decode w = .ok i ↔ encode i = w

/-- R175: which words raise ILLEGAL_CMD, with FCODE 1, said in arithmetic on the word. -/
def Obligations.IllegalCmdIsRaisedByExactlyTheIllegalWords : Prop :=
  ∀ (s : State) (w : Word), s.fault = none → s.pending = none →
    ((∃ t, cmdWrite w s = .next t ∧ t.fault = some FaultCode.illegalCmd ∧ t.fcode = 1) ↔ ∃ r, decode w = .error r) ∧
      ((∃ r, decode w = .error r) ↔
        (w.toNat % 16 = 0 ∨ 7 ≤ w.toNat % 16 ∨ w.toNat / 32 ≠ 0 ∨ (w.toNat / 16 % 2 = 1 ∧ w.toNat % 16 ≠ 5)))

/-- R72: the seven legal words, and four illegal ones of R75 and R76. -/
def Obligations.SpecWordsDecodeToTheirCommands : Prop :=
  decode 0x00000001#32 = .ok .encode ∧ decode 0x00000002#32 = .ok .decode ∧ decode 0x00000003#32 = .ok .correct ∧
    decode 0x00000004#32 = .ok .getBit ∧ decode 0x00000005#32 = .ok (.setBit false) ∧
    decode 0x00000015#32 = .ok (.setBit true) ∧ decode 0x00000006#32 = .ok .flipBit ∧
    decode 0x00000000#32 = .error .reservedOp ∧ decode 0x00000007#32 = .error .reservedOp ∧
    decode 0x00000011#32 = .error .strayVal ∧ decode 0x80000001#32 = .error .reservedBits ∧
    decodeTableWord 32 0x15 = some (.setBit true)

/-! ### A step runs the decoded command -/

/-- R24, R178: when the host moves and its next line writes a legal word to CMD, the block being idle and not
faulted, the step is `exec` of the decoded command, on the state with the turn taken off the schedule, the host
at the start of its next line and the write acknowledged. How the host, the schedule and the response are held is the model's (log 2, 4, 15, 16). -/
def Obligations.HostCmdWriteStepRunsTheDecodedCommand : Prop :=
  ∀ (s : State) (w : Word) (i : Instr) (l : HostLine),
    s.mover = Agent.host → s.hostFailed = false → s.hostProg[s.hostPc]? = some l →
    (l.op = HostOp.busWrite s.cfg.regBase 4 w ∨ l.op = HostOp.wr Reg.cmd (Expr.lit w.toNat)) →
    s.fault = none → s.pending = none → decode w = .ok i →
    step s = exec i { s with
      schedule := s.schedule.tail, hostPc := s.hostPc + 1, hostReads := [], response := some Response.wrote }

/-- R33: when the block moves, the step is `exec` of the pending command; the races settled after it are none
unless the host made one (log 2, log 8). -/
def Obligations.BlockStepCompletesThePendingCommand : Prop :=
  ∀ (s : State) (p : Pending), s.mover = Agent.block → s.pending = some p →
    step s = andThen (exec p.cmd { s with schedule := s.schedule.tail }) (fun t => .next (settleRaces t)) ∧
      (s.raced = [] → step s = exec p.cmd { s with schedule := s.schedule.tail })

/-- The word placed by `withFetchWord` is run by the very next step, on the registers, memory and configuration as they were (log 4). -/
def Obligations.FetchedWordRunsInTheNextStep : Prop :=
  ∀ (s : State) (w : Nat) (i : Instr), decodeTableWord 32 w = some i →
    ∃ u, step (s.withFetchWord 32 w) = exec i u ∧ u.fault = none ∧ u.pending = none ∧ u.cfg = s.cfg ∧ u.mem = s.mem ∧
      u.dstAddr = s.dstAddr ∧ u.srcAddr = s.srcAddr ∧ u.count = s.count ∧ u.resCount = s.resCount ∧
      u.resSynd = s.resSynd ∧ u.resBit = s.resBit ∧ u.mark = s.mark ∧ u.draws = s.draws

/-! ### Reset -/

/-- R43, R203: the state at power-on. That each byte is one free value of its address is the model's (log 5). -/
def Obligations.PowerOnStateHoldsTheResetValues : Prop :=
  State.reset.statusWord = 0 ∧ State.reset.dstAddr = 0 ∧ State.reset.srcAddr = 0 ∧ State.reset.count = 0 ∧
    State.reset.resCount = 0 ∧ State.reset.resSynd = 0 ∧ State.reset.resBit = 0 ∧ State.reset.pending = none ∧
    State.reset.mark.isEmpty = true ∧ ∀ a, Memory.read State.reset.mem a = Config.powerOnByte a

/-- R201: a reset event. -/
def Obligations.ResetEventClearsTheRegisters : Prop :=
  ∀ s : State, s.mover = Agent.reset →
    ∃ t, step s = .next t ∧ t.statusWord = 0 ∧ t.dstAddr = 0 ∧ t.srcAddr = 0 ∧ t.count = 0 ∧ t.resCount = 0 ∧
      t.resSynd = 0 ∧ t.resBit = 0 ∧ t.pending = none ∧ t.mark = s.mark

/-- R202, R203: buffer memory over a reset. Outside the output bytes of the command it abandons every byte keeps
its value; the output bytes are drawn, each from a free value of its own (log 6; for GET_BIT log 12). -/
def Obligations.ResetKeepsMemoryOutsideTheAbandonedOutput : Prop :=
  ∀ s t : State, s.mover = Agent.reset → step s = .next t →
    (∀ a, (∀ p, s.pending = some p → p.outBytes.has a = false) → Memory.read t.mem a = Memory.read s.mem a) ∧
      (∀ p, s.pending = some p → ∀ j, j < p.outBytes.len → p.outBytes.base + j < s.cfg.memBytes →
        Memory.read t.mem (p.outBytes.base + j) = Config.freeByte (s.draws + j))

/-! ### The CMD write and the hardware faults -/

/-- R178: what a CMD write does, test by test, the footprints as sets of bytes. -/
def Obligations.CmdWriteFollowsTheTestsInOrder : Prop :=
  ∀ (s : State) (w : Word),
    (s.fault ≠ none → cmdWrite w s = .next s) ∧
    (s.fault = none → s.pending ≠ none → cmdWrite w s = .next { s with fault := some FaultCode.cmdOverrun }) ∧
    (s.fault = none → s.pending = none → ∀ r, decode w = .error r →
      cmdWrite w s = .next { s with fault := some FaultCode.illegalCmd }) ∧
    (s.fault = none → s.pending = none → ∀ i, decode w = .ok i → ∀ p : Pending,
      p = { cmd := i, dst := s.dstAddr, src := s.srcAddr, cnt := s.count } →
      (i = .encode ∧ 2 ^ s.cfg.cntW - 1 < lenc s.count.toNat →
        cmdWrite w s = .next { s with fault := some FaultCode.countOverflow }) ∧
      (¬(i = .encode ∧ 2 ^ s.cfg.cntW - 1 < lenc s.count.toNat) →
        ((∃ a, p.touches a = true ∧ s.cfg.memBytes ≤ a) →
          cmdWrite w s = .next { s with fault := some FaultCode.range }) ∧
        ((∀ a, p.touches a = true → a < s.cfg.memBytes) →
          ((i = .encode ∨ i = .decode ∨ i = .correct) ∧ (∃ a, p.inBytes.has a = true ∧ p.outBytes.has a = true) →
            cmdWrite w s = .next { s with fault := some FaultCode.overlap }) ∧
          (¬((i = .encode ∨ i = .decode ∨ i = .correct) ∧ ∃ a, p.inBytes.has a = true ∧ p.outBytes.has a = true) →
            cmdWrite w s = .next { s with pending := some p }))))

/-- R177: a suppressed CMD write changes nothing but FAULT and FCODE. -/
def Obligations.SuppressedCmdWriteChangesOnlyTheFault : Prop :=
  ∀ (s t : State) (w : Word) (c : FaultCode), s.fault = none → s.pending = none → cmdWrite w s = .next t →
    t.fault = some c → c ≠ FaultCode.cmdOverrun ∧ t = { s with fault := some c } ∧ t.busy = false

/-- R180: a CMD write while busy. The word is discarded whatever it is, the pending command completes as it would
have, and afterwards every CMD write is ignored. -/
def Obligations.OverrunDiscardsTheWordAndThePendingCommandCompletes : Prop :=
  ∀ (s : State) (p : Pending) (w : Word), s.fault = none → s.pending = some p →
    cmdWrite w s = .next { s with fault := some FaultCode.cmdOverrun } ∧
      ∀ u, exec p.cmd s = .next u →
        exec p.cmd { s with fault := some FaultCode.cmdOverrun } = .next { u with fault := some FaultCode.cmdOverrun } ∧
          u.busy = false ∧
          ∀ w', cmdWrite w' { u with fault := some FaultCode.cmdOverrun } =
            .next { u with fault := some FaultCode.cmdOverrun }

/-- R183: FAULT and FCODE are cleared by reset only, and no second fault is recorded. -/
def Obligations.FaultStaysUntilReset : Prop :=
  ∀ (s t : State) (c : FaultCode), s.fault = some c → step s = .next t →
    (s.mover ≠ Agent.reset → t.fault = some c) ∧ (s.mover = Agent.reset → t.fault = none) ∧
      ∀ w, cmdWrite w s = .next s

/-- R113: when ENCODE raises COUNT_OVERFLOW, as a bound on the count, and the two facts the bound follows from. -/
def Obligations.CountOverflowBound : Prop :=
  ∀ s : State, 2 ≤ s.cfg.cntW → s.fault = none → s.pending = none →
    ((∃ t, cmdWrite (encode .encode) s = .next t ∧ t.fault = some FaultCode.countOverflow) ↔
        2 ^ s.cfg.cntW - 1 < lenc s.count.toNat) ∧
      (2 ^ s.cfg.cntW - 1 < lenc s.count.toNat ↔ 2 ^ s.cfg.cntW - 1 - s.cfg.cntW < s.count.toNat) ∧
      (s.cfg.cntW = 32 → 2 ^ s.cfg.cntW - 1 - s.cfg.cntW = 4294967263) ∧
      nData (2 ^ s.cfg.cntW - 1) = 2 ^ s.cfg.cntW - 1 - s.cfg.cntW ∧
      ∀ n m, lenc n ≤ m ↔ n ≤ nData m

/-- R173: the footprint leaves memory, written out per command. -/
def Obligations.RangeConditionWrittenOutPerCommand : Prop :=
  ∀ (c : Config) (p : Pending),
    (∃ a, p.touches a = true ∧ c.memBytes ≤ a) ↔
      match p.cmd with
      | .encode => (0 < p.cnt.toNat ∧ c.memBytes < p.src.toNat + nbytes p.cnt.toNat) ∨
          (0 < lenc p.cnt.toNat ∧ c.memBytes < p.dst.toNat + nbytes (lenc p.cnt.toNat))
      | .decode => (0 < p.cnt.toNat ∧ c.memBytes < p.src.toNat + nbytes p.cnt.toNat) ∨
          (0 < nData p.cnt.toNat ∧ c.memBytes < p.dst.toNat + nbytes (nData p.cnt.toNat))
      | .correct => (0 < p.cnt.toNat ∧ c.memBytes < p.src.toNat + nbytes p.cnt.toNat) ∨
          (0 < nData p.cnt.toNat ∧ c.memBytes < p.dst.toNat + nbytes (nData p.cnt.toNat))
      | .getBit => c.memBytes ≤ p.dst.toNat + p.cnt.toNat / 8
      | .setBit _ => c.memBytes ≤ p.dst.toNat + p.cnt.toNat / 8
      | .flipBit => c.memBytes ≤ p.dst.toNat + p.cnt.toNat / 8

/-! ### The register window -/

/-- R25, R171: the STATUS word, field by field, and the codes. -/
def Obligations.StatusWordHoldsItsFields : Prop :=
  ∀ s : State,
    s.statusWord.toNat = (if s.pending = none then 0 else 1) + 2 * (if s.fault = none then 0 else 1) +
        16 * (match s.fault with
          | none => 0
          | some .illegalCmd => 1
          | some .countOverflow => 2
          | some .range => 3
          | some .overlap => 4
          | some .cmdOverrun => 5) ∧
      readReg .status s = (s, s.statusWord)

/-- R32: a write to an operand register keeps the low bits, and a read returns them. -/
def Obligations.OperandRegistersKeepTheirLowBits : Prop :=
  ∀ (s : State) (v : Word),
    (∃ t, writeReg .dstAddr v s = .next t ∧ t = { s with dstAddr := t.dstAddr } ∧ readReg .dstAddr t = (t, t.dstAddr) ∧
      ∀ j, t.dstAddr.getLsbD j = (decide (j < s.cfg.addrW) && v.getLsbD j)) ∧
    (∃ t, writeReg .srcAddr v s = .next t ∧ t = { s with srcAddr := t.srcAddr } ∧ readReg .srcAddr t = (t, t.srcAddr) ∧
      ∀ j, t.srcAddr.getLsbD j = (decide (j < s.cfg.addrW) && v.getLsbD j)) ∧
    (∃ t, writeReg .count v s = .next t ∧ t = { s with count := t.count } ∧ readReg .count t = (t, t.count) ∧
      ∀ j, t.count.getLsbD j = (decide (j < s.cfg.cntW) && v.getLsbD j))

/-- R24, R36, R37, R207: what a read of each register returns; a result register read while BUSY = 1 returns a free word (log 6). -/
def Obligations.RegisterReadsReturnTheirValues : Prop :=
  ∀ (s : State) (r : Reg),
    busRead (s.cfg.regBase + r.offset) 4 s =
      match r with
      | .cmd => .next { s with response := some (.word 0) }
      | .status => .next { s with response := some (.word s.statusWord) }
      | .dstAddr => .next { s with response := some (.word s.dstAddr) }
      | .srcAddr => .next { s with response := some (.word s.srcAddr) }
      | .count => .next { s with response := some (.word s.count) }
      | .resCount => .next (if s.pending = none then { s with response := some (.word s.resCount) }
          else { s with response := some (.word (Config.freeWord s.draws)), draws := s.draws + 1 })
      | .resSynd => .next (if s.pending = none then { s with response := some (.word s.resSynd) }
          else { s with response := some (.word (Config.freeWord s.draws)), draws := s.draws + 1 })
      | .resBit => .next (if s.pending = none then { s with response := some (.word (BitVec.ofNat 32 s.resBit.toNat)) }
          else { s with response := some (.word (Config.freeWord s.draws)), draws := s.draws + 1 })

/-- R186: an access that touches the window and is no aligned word access is a bus error with no other effect; an
aligned word write to a read-only register is ignored. That one byte in the window is enough (an access that straddles
its edge), and that the run goes on, is the model's (log 9), and so is where the response is kept (log 15). -/
def Obligations.OtherWindowAccessesAreBusErrors : Prop :=
  ∀ (s : State) (addr width : Nat) (v : Word),
    ((∃ b, s.cfg.regBase ≤ b ∧ b < s.cfg.regBase + 32 ∧ addr ≤ b ∧ b < addr + width) →
      ¬(width = 4 ∧ ∃ k, k < 8 ∧ addr = s.cfg.regBase + 4 * k) →
      busWrite addr width v s =
          .next { s with mark := { s.mark with busError := true }, response := some Response.busError } ∧
        busRead addr width s =
          .next { s with mark := { s.mark with busError := true }, response := some Response.busError }) ∧
    (∀ r, r = Reg.status ∨ r = Reg.resCount ∨ r = Reg.resSynd ∨ r = Reg.resBit →
      busWrite (s.cfg.regBase + r.offset) 4 v s = .next { s with response := some Response.wrote })

/-! ### Invariants and whole-machine rules -/

/-- The invariant of the machine (Safety.lean) is kept by every step, whoever moves. -/
def Obligations.StepKeepsTheInvariant : Prop := ∀ s t : State, s.Inv → step s = .next t → t.Inv

/-- The invariant holds at power-on. -/
def Obligations.ResetMeetsTheInvariant : Prop := State.reset.Inv

/-- R185: the model-fault mark "only grows, and is cleared by nothing, not even reset". -/
def Obligations.ModelFaultMarkOnlyGrows : Prop :=
  ∀ s t : State, step s = .next t →
    (s.mark.hostRace = true → t.mark.hostRace = true) ∧ (s.mark.busError = true → t.mark.busError = true)

/-- R8, R20: the parameters are configuration; no step changes them (log 1). -/
def Obligations.NoStepChangesTheConfiguration : Prop := ∀ s t : State, step s = .next t → t.cfg = s.cfg

/-- R26, R33, R201: how the pending command, and so BUSY, can change. -/
def Obligations.PendingCommandChangesOnlyByIssueCompletionAndReset : Prop :=
  ∀ s t : State, step s = .next t →
    (s.mover = Agent.host → s.pending ≠ none → t.pending = s.pending) ∧
    (s.mover = Agent.host → s.pending = none → t.pending ≠ none → s.fault = none ∧ t.fault = none ∧
      ∃ i, t.pending = some { cmd := i, dst := s.dstAddr, src := s.srcAddr, cnt := s.count }) ∧
    (s.mover = Agent.block → t.pending = none) ∧
    (s.mover = Agent.reset → t.pending = none)

/-- R34, R35, R36: the result registers are written by the block's completions and by reset, never by the host. -/
def Obligations.HostStepsLeaveTheResultRegisters : Prop :=
  ∀ s t : State, step s = .next t → s.mover = Agent.host →
    t.resCount = s.resCount ∧ t.resSynd = s.resSynd ∧ t.resBit = s.resBit

/-- R73: the register frame of all six commands. A completion changes memory, the result registers of its own
command and the pending command, and an issue changes the pending command or the fault; nothing else. -/
def Obligations.ExecChangesOnlyTheRegistersOfItsCommand : Prop :=
  ∀ (i : Instr) (s t : State), exec i s = .next t →
    (s.pending = none → t = { s with pending := t.pending, fault := t.fault }) ∧
    (∀ p, s.pending = some p → p.cmd = i →
      t = { s with pending := none, mem := t.mem, resCount := t.resCount, resSynd := t.resSynd, resBit := t.resBit } ∧
      (i ≠ .encode → i ≠ .decode → i ≠ .correct → t.resCount = s.resCount) ∧
      (i ≠ .decode → i ≠ .correct → t.resSynd = s.resSynd) ∧
      (i ≠ .getBit → t.resBit = s.resBit)) ∧
    (∀ p, s.pending = some p → p.cmd ≠ i → t = { s with fault := t.fault })

/-- R61: the memory frame of all six commands: no byte outside the output bytes, and inside them only the bits the rule writes. -/
def Obligations.CompletionChangesOnlyTheBitsOfItsRule : Prop :=
  ∀ (i : Instr) (s t : State) (p : Pending), s.pending = some p → p.cmd = i → exec i s = .next t →
    (∀ a, p.outBytes.has a = false → Memory.read t.mem a = Memory.read s.mem a) ∧
    (∀ a k, k < 8 → (∀ y, WritesBit i p.cnt.toNat y → ¬(a = p.dst.toNat + y / 8 ∧ k = y % 8)) →
      bitOf t.mem a k = bitOf s.mem a k)

/-- R170, and "No fault can occur during execution" of R114, R131 and R152: under the invariant a pending command completes, and records no fault. -/
def Obligations.PendingCommandCompletesWithoutFault : Prop :=
  ∀ (s : State) (p : Pending), s.Inv → s.pending = some p →
    ∃ t, exec p.cmd s = .next t ∧ t.fault = s.fault ∧ t.busy = false

/-- R213: however many host steps come first, the block then completes the pending command. -/
def Obligations.PendingCommandCompletesAfterAnyHostSteps : Prop :=
  ∀ (s u : State) (k : Nat), s.Inv → s.pending ≠ none → s.schedule = List.replicate k Agent.host →
    Host.Core.run Sys2Proof.core k s = .next u → u.pending = s.pending ∧ ∃ t, step u = .next t ∧ t.pending = none

/-- R33, R209: a completion reads its latched operands, never the live operand registers. -/
def Obligations.CompletionIgnoresTheLiveOperandRegisters : Prop :=
  ∀ (s t : State) (p : Pending) (d r c : Word), s.pending = some p → exec p.cmd s = .next t →
    exec p.cmd { s with dstAddr := d, srcAddr := r, count := c } = .next { t with dstAddr := d, srcAddr := r, count := c }

/-! ### GET_BIT, SET_BIT, FLIP_BIT -/

/-- R91: GET_BIT completes with the addressed bit in RES_BIT and nothing else changed. -/
def Obligations.GetBitReadsTheAddressedBit : Prop :=
  ∀ (s : State) (p : Pending), s.pending = some p → p.cmd = .getBit →
    p.dst.toNat + p.cnt.toNat / 8 < s.cfg.memBytes →
    ∃ t, exec .getBit s = .next t ∧ t = { s with resBit := t.resBit, pending := none } ∧
      t.resBit.toNat = (Memory.read s.mem (p.dst.toNat + p.cnt.toNat / 8)).toNat / 2 ^ (p.cnt.toNat % 8) % 2

/-- R93: SET_BIT completes with the addressed bit at its value, and every other bit and register as it was. -/
def Obligations.SetBitWritesTheAddressedBit : Prop :=
  ∀ (s : State) (p : Pending) (v : Bool), s.pending = some p → p.cmd = .setBit v →
    p.dst.toNat + p.cnt.toNat / 8 < s.cfg.memBytes →
    ∃ t, exec (.setBit v) s = .next t ∧ t = { s with mem := t.mem, pending := none } ∧
      ∀ a k, k < 8 → bitOf t.mem a k =
        if a = p.dst.toNat + p.cnt.toNat / 8 ∧ k = p.cnt.toNat % 8 then v else bitOf s.mem a k

/-- R95: FLIP_BIT completes with the addressed bit inverted, and every other bit and register as it was. -/
def Obligations.FlipBitInvertsTheAddressedBit : Prop :=
  ∀ (s : State) (p : Pending), s.pending = some p → p.cmd = .flipBit →
    p.dst.toNat + p.cnt.toNat / 8 < s.cfg.memBytes →
    ∃ t, exec .flipBit s = .next t ∧ t = { s with mem := t.mem, pending := none } ∧
      ∀ a k, k < 8 → bitOf t.mem a k =
        if a = p.dst.toNat + p.cnt.toNat / 8 ∧ k = p.cnt.toNat % 8 then !bitOf s.mem a k else bitOf s.mem a k

/-- R97: two flips with no other write to the byte between them restore it; setting a bit to the value just read leaves memory unchanged. -/
def Obligations.BitLawsOfR97 : Prop :=
  (∀ (s t v u : State) (p q : Pending), s.pending = some p → p.cmd = .flipBit → exec .flipBit s = .next t →
    v.pending = some q → q.cmd = .flipBit → q.dst = p.dst → q.cnt = p.cnt →
    Memory.read v.mem (p.dst.toNat + p.cnt.toNat / 8) = Memory.read t.mem (p.dst.toNat + p.cnt.toNat / 8) →
    exec .flipBit v = .next u →
    Memory.read u.mem (p.dst.toNat + p.cnt.toNat / 8) = Memory.read s.mem (p.dst.toNat + p.cnt.toNat / 8)) ∧
  (∀ (s t v u : State) (p q : Pending) (b : Bool), s.pending = some p → p.cmd = .getBit → exec .getBit s = .next t →
    v.pending = some q → q.cmd = .setBit b → q.dst = p.dst → q.cnt = p.cnt → t.resBit = BitVec.ofBool b →
    Memory.read v.mem (p.dst.toNat + p.cnt.toNat / 8) = Memory.read t.mem (p.dst.toNat + p.cnt.toNat / 8) →
    exec (.setBit b) v = .next u → ∀ a, Memory.read u.mem a = Memory.read v.mem a)

/-- R96: a flip of a codeword bit changes the syndrome of the codeword by the XOR of its position. -/
def Obligations.FlipChangesTheSyndromeByItsPosition : Prop :=
  ∀ (s t : State) (p : Pending) (c : Nat), s.pending = some p → p.cmd = .flipBit → exec .flipBit s = .next t →
    p.cnt.toNat < c →
    xorPositions (bitRead t.mem p.dst.toNat) c =
      xorPositions (bitRead s.mem p.dst.toNat) c ^^^ (p.cnt.toNat + 1)

/-! ### ENCODE -/

/-- R119: ENCODE completes with the encoded length in RES_COUNT and the other registers as they were. The length fits, as the COUNT_OVERFLOW check of its issue says. -/
def Obligations.EncodeReturnsTheEncodedLength : Prop :=
  ∀ (s : State) (p : Pending), s.pending = some p → p.cmd = .encode → InMemory s p →
    lenc p.cnt.toNat ≤ 2 ^ s.cfg.cntW - 1 → s.cfg.cntW ≤ 32 →
    ∃ t, exec .encode s = .next t ∧ t = { s with mem := t.mem, resCount := t.resCount, pending := none } ∧
      t.resCount.toNat = lenc p.cnt.toNat

/-- R115: the `j`-th input bit goes to the `j`-th data position, and still stands in the input buffer. -/
def Obligations.EncodePlacesTheDataBits : Prop :=
  ∀ (s t : State) (p : Pending), Ready s p .encode → exec .encode s = .next t →
    ∀ j q, j < p.cnt.toNat → dataPos q = true → nData q = j + 1 →
      bitRead t.mem p.dst.toNat (q - 1) = bitRead t.mem p.src.toNat j ∧
        bitRead t.mem p.src.toNat j = bitRead s.mem p.src.toNat j

/-- R114, R116, R117: each parity position `2^k` of the codeword holds bit `k` of the XOR of the data positions that hold a 1. -/
def Obligations.EncodeStoresTheAccumulatorInTheParityBits : Prop :=
  ∀ (s t : State) (p : Pending), Ready s p .encode → exec .encode s = .next t →
    ∀ k, 2 ^ k ≤ lenc p.cnt.toNat →
      bitRead t.mem p.dst.toNat (2 ^ k - 1) =
        (xorPositions (fun y => dataPos (y + 1) && bitRead t.mem p.dst.toNat y) (lenc p.cnt.toNat)).testBit k

/-- R122: a codeword has zero syndrome. -/
def Obligations.CodewordHasZeroSyndrome : Prop :=
  ∀ (s t : State) (p : Pending), Ready s p .encode → exec .encode s = .next t →
    xorPositions (bitRead t.mem p.dst.toNat) (lenc p.cnt.toNat) = 0

/-- R120: two ENCODEs of one length on equal input bits `[0, n)` leave equal output bits and counts, whatever else memory and the registers hold. -/
def Obligations.EncodeDependsOnlyOnItsInputBits : Prop :=
  ∀ (s s' t t' : State) (p p' : Pending), Ready s p .encode → Ready s' p' .encode → p'.cnt = p.cnt →
    (∀ x, x < p.cnt.toNat → bitRead s'.mem p'.src.toNat x = bitRead s.mem p.src.toNat x) →
    exec .encode s = .next t → exec .encode s' = .next t' →
    t'.resCount = t.resCount ∧
      ∀ y, y < lenc p.cnt.toNat → bitRead t'.mem p'.dst.toNat y = bitRead t.mem p.dst.toNat y

/-- R13, R111: `Lenc(n)` is the least length with exactly `n` data positions, counted one by one, and is `n + r`
for the least `r` with `2^r >= n + r + 1`. -/
def Obligations.EncodedLengthIsTheLeastWithThatManyDataPositions : Prop :=
  ∀ n, countBelow (fun i => dataPos (i + 1)) (lenc n) = n ∧
    (∀ l, l < lenc n → countBelow (fun i => dataPos (i + 1)) l ≠ n) ∧
    ∃ r, lenc n = n + r ∧ n + r + 1 ≤ 2 ^ r ∧ ∀ k, k < r → 2 ^ k < n + k + 1

/-- R13: the helper functions meet their definitions. -/
def Obligations.HelperFunctionsMeetTheirDefinitions : Prop :=
  (∀ p, isPow2 p = true ↔ ∃ k, p = 2 ^ k) ∧
  (∀ p, dataPos p = true ↔ 1 ≤ p ∧ ¬∃ k, p = 2 ^ k) ∧
  (∀ s, s ≤ 2 ^ clog2 s ∧ ∀ k, s ≤ 2 ^ k → clog2 s ≤ k) ∧
  (∀ c, nPar c = countBelow (fun i => isPow2 (i + 1)) c) ∧
  (∀ c, nData c = countBelow (fun i => dataPos (i + 1)) c)

/-! ### DECODE and CORRECT -/

/-- R132, R134, R135: DECODE completes with the number of data positions in RES_COUNT and the XOR of the positions
of the set bits in RES_SYND, the other registers as they were; the syndrome fits in the width of the count. -/
def Obligations.DecodeReturnsCountAndSyndrome : Prop :=
  ∀ (s : State) (p : Pending), Ready s p .decode →
    ∃ t, exec .decode s = .next t ∧
      t = { s with mem := t.mem, resCount := t.resCount, resSynd := t.resSynd, pending := none } ∧
      t.resCount.toNat = p.cnt.toNat - nPar p.cnt.toNat ∧
      t.resSynd.toNat = xorPositions (bitRead s.mem p.src.toNat) p.cnt.toNat ∧
      t.resSynd.toNat < 2 ^ nPar p.cnt.toNat ∧ (p.cnt.toNat < 2 ^ s.cfg.cntW → t.resSynd.toNat < 2 ^ s.cfg.cntW)

/-- R133: output bit `j` is the codeword bit at the `j`-th data position. -/
def Obligations.DecodeExtractsTheDataBits : Prop :=
  ∀ (s t : State) (p : Pending), Ready s p .decode → exec .decode s = .next t →
    ∀ j q, j < nData p.cnt.toNat → dataPos q = true → nData q = j + 1 →
      bitRead t.mem p.dst.toNat j = bitRead s.mem p.src.toNat (q - 1)

/-- R152: CORRECT completes with the count and the syndrome of DECODE, and with its data bits, of which bit
`S - clog2(S) - 1` is flipped exactly when `S` is not 0, no power of two, and at most `C`. -/
def Obligations.CorrectFlipsTheBitTheSyndromeNames : Prop :=
  ∀ (s : State) (p : Pending), Ready s p .correct →
    ∃ t, exec .correct s = .next t ∧
      t = { s with mem := t.mem, resCount := t.resCount, resSynd := t.resSynd, pending := none } ∧
      t.resCount.toNat = nData p.cnt.toNat ∧
      t.resSynd.toNat = xorPositions (bitRead s.mem p.src.toNat) p.cnt.toNat ∧
      ∀ j q, j < nData p.cnt.toNat → dataPos q = true → nData q = j + 1 →
        bitRead t.mem p.dst.toNat j =
          (bitRead s.mem p.src.toNat (q - 1) ^^
            (decide (t.resSynd.toNat ≠ 0) && !isPow2 t.resSynd.toNat && decide (t.resSynd.toNat ≤ p.cnt.toNat) &&
              decide (j = t.resSynd.toNat - clog2 t.resSynd.toNat - 1)))

/-- R155, R156: for a syndrome that is corrected, the two descriptions of `k` agree, and the flipped index is the
output slot of position `S`, inside the output. -/
def Obligations.FlippedIndexIsTheSlotOfTheSyndrome : Prop :=
  ∀ s c, s ≠ 0 → isPow2 s = false → s ≤ c →
    clog2 s = nPar s ∧ s - clog2 s - 1 = nData s - 1 ∧ dataPos s = true ∧ s - clog2 s - 1 < nData c

/-- R121, R139, R162: with COUNT = 0 a codeword command is accepted whatever the addresses hold, and completes
with count and syndrome 0 and memory as it was. -/
def Obligations.ZeroLengthCommandsAreAcceptedAndTouchNothing : Prop :=
  ∀ (i : Instr) (s : State) (p : Pending), i = .encode ∨ i = .decode ∨ i = .correct →
    p.cmd = i → p.cnt = 0 →
    (∀ c : Config, p.issueFault c = none) ∧ (∀ a, p.touches a = false) ∧
    (s.pending = some p → ∃ t, exec i s = .next t ∧ t.mem = s.mem ∧ t.resCount = 0 ∧ t.resBit = s.resBit ∧
      (i = .encode → t.resSynd = s.resSynd) ∧ (i ≠ .encode → t.resSynd = 0))

/-- R140: DECODE of an uncorrupted codeword gives syndrome 0, the count `n` and the original bits. -/
def Obligations.DecodeOfAnEncodedMessageReturnsTheMessage : Prop :=
  ∀ (s t v : State) (p q : Pending), Ready s p .encode → exec .encode s = .next t →
    OnCodeword .decode p t v q (fun _ => false) →
    ∃ u, exec .decode v = .next u ∧ u.resSynd = 0 ∧ u.resCount.toNat = p.cnt.toNat ∧
      ∀ j, j < p.cnt.toNat → bitRead u.mem q.dst.toNat j = bitRead s.mem p.src.toNat j

/-- R141: the syndrome of a corrupted codeword is the XOR of the corrupted positions. -/
def Obligations.SyndromeOfACorruptedCodewordIsTheXorOfItsErrors : Prop :=
  ∀ (s t v : State) (p q : Pending) (e : Nat → Bool), Ready s p .encode → exec .encode s = .next t →
    OnCodeword .decode p t v q e →
    ∃ u, exec .decode v = .next u ∧ u.resSynd.toNat = xorPositions e (lenc p.cnt.toNat) ∧
      (∀ y, y < lenc p.cnt.toNat → (∀ x, x < lenc p.cnt.toNat → (e x = true ↔ x = y)) →
        u.resSynd.toNat = y + 1 ∧ (isPow2 u.resSynd.toNat = true ↔ dataPos (y + 1) = false))

/-- R142: DECODE of a corrupted codeword leaves RES_SYND = 0 exactly when the XOR of the corrupted positions is 0: two
errors never do (RES_SYND is the XOR of their two positions, not 0), and positions 1, 2 and 3 together do. -/
def Obligations.ZeroSyndromeErrorPatterns : Prop :=
  ∀ (s t v : State) (p q : Pending) (e : Nat → Bool), Ready s p .encode → exec .encode s = .next t →
    OnCodeword .decode p t v q e →
    ∃ u, exec .decode v = .next u ∧ (u.resSynd = 0 ↔ xorPositions e (lenc p.cnt.toNat) = 0) ∧
      (∀ x y, x < y → y < lenc p.cnt.toNat → (∀ z, z < lenc p.cnt.toNat → (e z = true ↔ z = x ∨ z = y)) →
        u.resSynd.toNat = (x + 1) ^^^ (y + 1) ∧ u.resSynd ≠ 0) ∧
      (3 ≤ lenc p.cnt.toNat → (∀ z, z < lenc p.cnt.toNat → (e z = true ↔ z < 3)) → u.resSynd = 0)

/-- R158: the single-error guarantee. With at most one bit of the codeword inverted, CORRECT returns the original message. -/
def Obligations.CorrectRepairsAnySingleError : Prop :=
  ∀ (s t v : State) (p q : Pending) (e : Option Nat), Ready s p .encode → exec .encode s = .next t →
    OnCodeword .correct p t v q (fun y => decide (e = some y)) →
    ∃ u, exec .correct v = .next u ∧ u.resCount.toNat = p.cnt.toNat ∧
      ∀ j, j < p.cnt.toNat → bitRead u.mem q.dst.toNat j = bitRead s.mem p.src.toNat j

/-! ### Buffer memory and the host -/

/-- The canonical form of memory (log 5): two memories in it that list the same bytes are the same data. -/
def Obligations.CanonicalMemoriesThatListTheSameBytesAreEqual : Prop :=
  ∀ m m' : Memory, Memory.wf m = true → Memory.wf m' = true → (∀ a, Memory.get? m a = Memory.get? m' a) → m = m'

/-- R50, R56, R62(d): a host byte write outside the pending footprint is read back, and every other byte of memory, a
footprint byte too, keeps its value; an address outside buffer memory names no byte (log 11). -/
def Obligations.HostByteWriteIsReadBack : Prop :=
  ∀ (s : State) (a : Nat) (b : Byte),
    (a < s.cfg.memBytes → s.inFootprint a = false →
      ∃ t, hostStoreByte a b s = .next t ∧ t = { s with mem := t.mem, response := some Response.wrote } ∧
        readByte a t = .next (t, b) ∧ (∀ c, c ≠ a → Memory.read t.mem c = Memory.read s.mem c) ∧
        ∀ c, c ≠ a → c < s.cfg.memBytes → s.inFootprint c = false → readByte c t = .next (t, Memory.read s.mem c)) ∧
    (s.cfg.memBytes ≤ a → hostStoreByte a b s = .fault .noSuchByte ∧ readByte a s = .fault .noSuchByte)

/-- R63, R187: an access to the pending footprint records HostRace, is not detected by the block, and leaves a free
value in the byte, and a read returns another (log 8); both are fresh: their numbers lie between the draws made before
and those made after (log 6). An access elsewhere records nothing. -/
def Obligations.FootprintAccessIsAHostRace : Prop :=
  ∀ (s : State) (p : Pending) (a : Nat) (b : Byte), s.pending = some p → a < s.cfg.memBytes →
    (p.touches a = true →
      (∃ t, hostStoreByte a b s = .next t ∧ t.mark = { s.mark with hostRace := true } ∧ t.fault = s.fault ∧
        t.pending = s.pending ∧ (∃ k, s.draws ≤ k ∧ k < t.draws ∧ Memory.read t.mem a = Config.freeByte k) ∧
        ∀ c, c ≠ a → Memory.read t.mem c = Memory.read s.mem c) ∧
      (∃ t v, readByte a s = .next (t, v) ∧ t.mark = { s.mark with hostRace := true } ∧ t.fault = s.fault ∧
        t.pending = s.pending ∧
        (∃ j k, j ≠ k ∧ s.draws ≤ j ∧ j < t.draws ∧ s.draws ≤ k ∧ k < t.draws ∧
          Memory.read t.mem a = Config.freeByte j ∧ v = Config.freeByte k) ∧
        ∀ c, c ≠ a → Memory.read t.mem c = Memory.read s.mem c)) ∧
    (p.touches a = false →
      (∃ t, hostStoreByte a b s = .next t ∧ t.mark = s.mark) ∧ readByte a s = .next (s, Memory.read s.mem a))

/-- R82: the two lines of WAIT, run from the start of the first by two host steps: they poll again while BUSY = 1 and go on at BUSY = 0. The
schedule and the host's fields are the model's (log 2, log 16). -/
def Obligations.WaitEndsAtTheFirstIdleStatusRead : Prop :=
  ∀ (s : State) (rest : List Agent), s.schedule = Agent.host :: Agent.host :: rest → s.hostFailed = false →
    s.hostReads = [] →
    s.hostProg[s.hostPc]? = waitLines[0]? → s.hostProg[s.hostPc + 1]? = waitLines[1]? →
    ∃ t, Host.Core.run Sys2Proof.core 2 s = .next t ∧
      t.hostPc = (if s.busy then s.hostPc else s.hostPc + 2) ∧ t.response = some (.word s.statusWord) ∧
      t = { s with schedule := rest, hostPc := t.hostPc, hostVars := t.hostVars, response := t.response }

/-- R80: what WR and SB do with any value. WR writes an imm32 as its bus encoding and never stops; SB writes an imm8 at
an address of buffer memory. A value that is no imm32 or imm8 is written as a free value (log 23); an address that
names no byte stops with noSuchByte (log 11). -/
def Obligations.HostWritesOfAnyValueGoOn : Prop :=
  ∀ (s : State) (r : Reg) (a v : Int),
    (∃ t, hostWriteReg r v s = .next t) ∧
    hostWriteReg r v s =
      (if 0 ≤ v ∧ v < 4294967296 then busWrite (s.cfg.regBase + r.offset) 4 (BitVec.ofInt 32 v) s
        else busWrite (s.cfg.regBase + r.offset) 4 (Config.freeWord s.draws) { s with draws := s.draws + 1 }) ∧
    (0 ≤ a ∧ a < s.cfg.memBytes → (∃ t, hostStore a v s = .next t) ∧
      hostStore a v s =
        (if 0 ≤ v ∧ v < 256 then hostStoreByte a.toNat (BitVec.ofInt 8 v) s
          else hostStoreByte a.toNat (Config.freeByte s.draws) { s with draws := s.draws + 1 })) ∧
    (¬(0 ≤ a ∧ a < s.cfg.memBytes) → hostStore a v s = .fault .noSuchByte)

/-- Under the invariant every step goes on but for two of the host's: a read of a byte, or an SB, at an address that
names no byte (R50, log 11), and a bus access none of whose bytes lies in the register window (log 10). No other line
and no other value of an expression stops a step (log 23). -/
def Obligations.StepStopsOnlyAtAHostAccessOutsideTheBlock : Prop :=
  ∀ s : State, s.Inv →
    (∃ t, step s = .next t) ∨
    (s.mover = Agent.host ∧ step s = .fault .noSuchByte ∧
      ∃ l a, s.hostProg[s.hostPc]? = some l ∧ (a < 0 ∨ (s.cfg.memBytes : Int) ≤ a) ∧
        (l.op.values s.hostVars s.hostReads = .needs (HostRead.byte a) ∨
          ∃ x y v rest, l.op = HostOp.sb x y ∧ l.op.values s.hostVars s.hostReads = .done (a, v) rest)) ∨
    (s.mover = Agent.host ∧ step s = .refused .notThisBlock ∧
      ∃ l addr width, s.hostProg[s.hostPc]? = some l ∧
        (l.op = HostOp.busRead addr width ∨ ∃ d, l.op = HostOp.busWrite addr width d) ∧
        ∀ b, addr ≤ b → b < addr + width → b < s.cfg.regBase ∨ s.cfg.regBase + 32 ≤ b)

end
end

