-- ==== Sys2Proof/Laws/Hamming.lean ====
section
/-! SUPPORT. The arithmetic of positions: how the counts of parity and data positions grow by one, what the
search for `Lenc` finds, and the algebra of `xorPositions`. -/

namespace Sys2Proof.Machine

theorem isPow2_iff_isPowerOfTwo (p : Nat) : isPow2 p = true ↔ p.isPowerOfTwo := by
  rw [← Nat.ne_zero_and_sub_one_eq_zero_iff_isPowerOfTwo]
  simp [isPow2, Nat.one_le_iff_ne_zero]

@[simp] theorem isPow2_zero : isPow2 0 = false := by decide

theorem dataPos_succ (c : Nat) : dataPos (c + 1) = !isPow2 (c + 1) := by simp [dataPos]

/-- Strictly between two neighbouring powers of two there is no power of two. -/
theorem not_isPow2_of_between {k p : Nat} (h1 : 2 ^ k < p) (h2 : p < 2 ^ (k + 1)) : isPow2 p = false := by
  by_contra h
  rw [Bool.not_eq_false, isPow2_iff_isPowerOfTwo] at h
  obtain ⟨j, rfl⟩ := h
  have a := (Nat.pow_lt_pow_iff_right (by decide : 1 < 2)).1 h1
  have b := (Nat.pow_lt_pow_iff_right (by decide : 1 < 2)).1 h2
  omega

theorem isPow2_two_pow (k : Nat) : isPow2 (2 ^ k) = true := (isPow2_iff_isPowerOfTwo _).2 ⟨k, rfl⟩

@[simp] theorem nPar_zero : nPar 0 = 0 := rfl

/-- One more position: `nPar` grows exactly at a parity position. -/
theorem nPar_succ (c : Nat) : nPar (c + 1) = nPar c + if isPow2 (c + 1) then 1 else 0 := by
  by_cases hc : c = 0
  · subst hc; decide
  have lo := Nat.log2_self_le hc
  have hi := Nat.lt_log2_self (n := c)
  unfold nPar
  rw [if_neg (Nat.succ_ne_zero c), if_neg hc]
  by_cases h : c + 1 = 2 ^ (Nat.log2 c + 1)
  · rw [h, isPow2_two_pow, Nat.log2_two_pow, if_pos rfl]
  · have e : Nat.log2 (c + 1) = Nat.log2 c :=
      (Nat.log2_eq_iff (Nat.succ_ne_zero c)).2 ⟨by omega, by omega⟩
    rw [e, not_isPow2_of_between (k := Nat.log2 c) (by omega) (by omega)]
    simp

theorem nPar_le (c : Nat) : nPar c ≤ c := by
  induction c with
  | zero => simp
  | succ c ih => rw [nPar_succ]; split <;> omega

@[simp] theorem nData_zero : nData 0 = 0 := rfl

/-- One more position: `nData` grows exactly at a data position. -/
theorem nData_succ (c : Nat) : nData (c + 1) = nData c + if dataPos (c + 1) then 1 else 0 := by
  have := nPar_le c
  unfold nData
  rw [nPar_succ, dataPos_succ]
  cases isPow2 (c + 1)
  · simp; omega
  · simp

theorem nData_succ_of_data {c : Nat} (h : dataPos (c + 1) = true) : nData (c + 1) = nData c + 1 := by
  rw [nData_succ, if_pos h]

theorem nData_succ_of_not {c : Nat} (h : ¬dataPos (c + 1) = true) : nData (c + 1) = nData c := by
  rw [nData_succ, if_neg h]; rfl

theorem nData_le (c : Nat) : nData c ≤ c := Nat.sub_le _ _

theorem nData_mono {a b : Nat} (h : a ≤ b) : nData a ≤ nData b := by
  induction h with
  | refl => exact Nat.le_refl _
  | step _ ih => rw [Nat.succ_eq_add_one, nData_succ]; omega

/-- A data position inside `[1, c]` gives an index inside `[0, nData c)`. -/
theorem nData_lt_of_dataPos {i c : Nat} (h : i < c) (hd : dataPos (i + 1) = true) : nData i < nData c := by
  have := nData_mono (show i + 1 ≤ c from h)
  rw [nData_succ, hd] at this
  simp at this
  omega

/-- What the search for `r` finds, with enough fuel: the least one from where it starts. -/
theorem leastParity_spec (n fuel r : Nat) (h : n + (r + fuel) + 1 ≤ 2 ^ (r + fuel)) :
    n + leastParity n fuel r + 1 ≤ 2 ^ leastParity n fuel r ∧ r ≤ leastParity n fuel r ∧
      ∀ k, r ≤ k → k < leastParity n fuel r → 2 ^ k < n + k + 1 := by
  induction fuel generalizing r with
  | zero => exact ⟨h, Nat.le_refl _, fun k h1 h2 => by simp only [leastParity] at h2; omega⟩
  | succ fuel ih =>
    simp only [leastParity]
    split
    · rename_i hr
      exact ⟨hr, Nat.le_refl _, fun k h1 h2 => by omega⟩
    · rename_i hr
      obtain ⟨a, b, c⟩ := ih (r + 1) (by rw [show r + 1 + fuel = r + (fuel + 1) by omega]; exact h)
      refine ⟨a, by omega, fun k h1 h2 => ?_⟩
      by_cases hk : k = r
      · subst hk; omega
      · exact c k (by omega) h2

/-- R14's inequality holds at `parityCount` and at no smaller number. -/
theorem parityCount_spec (n : Nat) :
    n + parityCount n + 1 ≤ 2 ^ parityCount n ∧ ∀ k, k < parityCount n → 2 ^ k < n + k + 1 := by
  have hi := Nat.lt_log2_self (n := n)
  have hk : Nat.log2 n + 1 < 2 ^ (Nat.log2 n + 1) := Nat.lt_two_pow_self
  have key := leastParity_spec n (Nat.log2 n + 2) 0 (by
    rw [Nat.zero_add, Nat.pow_succ]
    omega)
  exact ⟨key.1, fun k h => key.2.2 k (Nat.zero_le _) h⟩

@[simp] theorem lenc_zero : lenc 0 = 0 := by decide

/-- `2^(r-1) < Lenc(n) < 2^r` for `n >= 1` (R14). -/
theorem lenc_between {n : Nat} (hn : n ≠ 0) :
    ∃ k, parityCount n = k + 1 ∧ 2 ^ k < lenc n ∧ lenc n < 2 ^ (k + 1) := by
  obtain ⟨h1, h2⟩ := parityCount_spec n
  cases h : parityCount n with
  | zero => rw [h] at h1; simp at h1; omega
  | succ k =>
    refine ⟨k, rfl, ?_, ?_⟩
    · have := h2 k (by omega); unfold lenc; omega
    · rw [h] at h1; unfold lenc; omega

/-- For `n >= 1` the last position of a codeword is a data position (R14). -/
theorem lenc_dataPos {n : Nat} (hn : n ≠ 0) : dataPos (lenc n) = true := by
  obtain ⟨k, -, h1, h2⟩ := lenc_between hn
  have : lenc n ≠ 0 := by omega
  simp [dataPos, not_isPow2_of_between h1 h2]
  omega

/-- A codeword of length `Lenc(n)` has exactly `n` data positions. -/
theorem nData_lenc (n : Nat) : nData (lenc n) = n := by
  by_cases hn : n = 0
  · subst hn; decide
  obtain ⟨k, hk, h1, h2⟩ := lenc_between hn
  have h0 : lenc n ≠ 0 := by omega
  have e : Nat.log2 (lenc n) = k := (Nat.log2_eq_iff h0).2 ⟨by omega, h2⟩
  unfold nData nPar
  rw [if_neg h0, e]
  unfold lenc
  omega

/-- Every shorter prefix has fewer than `n` data positions: the first loop of ENCODE is not done there. -/
theorem nData_lt_of_lt_lenc {i n : Nat} (h : i < lenc n) : nData i < n := by
  have hn : n ≠ 0 := by rintro rfl; simp at h
  have hd := lenc_dataPos hn
  obtain ⟨l, hl⟩ : ∃ l, lenc n = l + 1 := ⟨lenc n - 1, by omega⟩
  rw [hl] at hd h
  have e := nData_lenc n
  rw [hl, nData_succ, hd] at e
  have := nData_mono (show i ≤ l by omega)
  simp at e
  omega

/-- The parity positions in `[1, c]` are `2^0` to `2^(nPar c - 1)`. -/
theorem lt_nPar_iff (k c : Nat) : k < nPar c ↔ 2 ^ k ≤ c := by
  unfold nPar
  split
  · subst_vars; simp
  · rename_i hc
    rw [Nat.lt_succ_iff, Nat.le_log2 hc]

/-- A position that is no data position is a power of two. -/
theorem exists_two_pow_of_not_dataPos {y : Nat} (h : dataPos (y + 1) = false) : ∃ k, y + 1 = 2 ^ k := by
  rw [dataPos_succ, Bool.not_eq_false', isPow2_iff_isPowerOfTwo] at h
  exact h

/-! ### XOR of positions -/

@[simp] theorem xorPositions_zero (f : Nat → Bool) : xorPositions f 0 = 0 := rfl

theorem xorPositions_succ (f : Nat → Bool) (c : Nat) :
    xorPositions f (c + 1) = if f c then xorPositions f c ^^^ (c + 1) else xorPositions f c := rfl

theorem xorPositions_congr {f g : Nat → Bool} {c : Nat} (h : ∀ i, i < c → f i = g i) :
    xorPositions f c = xorPositions g c := by
  induction c with
  | zero => rfl
  | succ c ih => rw [xorPositions_succ, xorPositions_succ, h c (by omega), ih (fun i hi => h i (by omega))]

/-- XOR of positions is linear: the symmetric difference of two sets gives the XOR of their sums. -/
theorem xorPositions_xor (f g : Nat → Bool) (c : Nat) :
    xorPositions (fun i => f i ^^ g i) c = xorPositions f c ^^^ xorPositions g c := by
  induction c with
  | zero => simp
  | succ c ih =>
    rw [xorPositions_succ, xorPositions_succ, xorPositions_succ, ih]
    cases f c <;> cases g c <;> simp [Nat.xor_comm, Nat.xor_left_comm, Nat.xor_assoc]

/-- Every position in `[1, c]` has at most `w` bits when `c` has, and so has their XOR. -/
theorem xorPositions_lt {f : Nat → Bool} {c w : Nat} (h : c < 2 ^ w) : xorPositions f c < 2 ^ w := by
  induction c with
  | zero => exact h
  | succ c ih =>
    rw [xorPositions_succ]
    split
    · exact Nat.xor_lt_two_pow (ih (by omega)) h
    · exact ih (by omega)

@[simp] theorem xorPositions_false (c : Nat) : xorPositions (fun _ => false) c = 0 := by
  induction c with
  | zero => rfl
  | succ c ih => rw [xorPositions_succ, ih]; rfl

/-- One set bit gives its own position. -/
theorem xorPositions_single {f : Nat → Bool} {n c : Nat} (hn : n < c) (hf : ∀ z, z < c → (f z = true ↔ z = n)) :
    xorPositions f c = n + 1 := by
  induction c with
  | zero => omega
  | succ c ih =>
    rw [xorPositions_succ]
    by_cases h : c = n
    · subst h
      have off : xorPositions f c = xorPositions (fun _ => false) c := xorPositions_congr (fun i hi => by
        have := hf i (by omega)
        by_contra hc
        simp only [Bool.not_eq_false] at hc
        have := this.1 hc
        omega)
      rw [(hf c (by omega)).2 rfl, off, xorPositions_false]
      simp
    · have hc : ¬f c = true := fun e => h ((hf c (by omega)).1 e)
      rw [if_neg hc, ih (by omega) (fun z hz => hf z (by omega))]

/-- The parity positions whose bits are those of `S` have the XOR `S` (R122). -/
theorem xorPositions_parity (S c : Nat) :
    xorPositions (fun y => isPow2 (y + 1) && S.testBit (Nat.log2 (y + 1))) c = S % 2 ^ nPar c := by
  induction c with
  | zero => simp [Nat.mod_one]
  | succ c ih =>
    rw [xorPositions_succ, ih, nPar_succ]
    by_cases h : isPow2 (c + 1) = true
    · simp only [h, if_true, Bool.true_and]
      obtain ⟨k, hk⟩ := (isPow2_iff_isPowerOfTwo _).1 h
      have hn : nPar c = k := by
        have a := (lt_nPar_iff k c).not.2 (by omega)
        by_contra hne
        have : 2 ^ nPar c < 2 ^ k := (Nat.pow_lt_pow_iff_right (by decide)).2 (by omega)
        exact absurd ((lt_nPar_iff _ c).2 (by omega)) (lt_irrefl _)
      rw [hn, hk, Nat.log2_two_pow]
      apply Nat.eq_of_testBit_eq
      intro i
      by_cases hb : S.testBit k = true
      · simp only [hb, if_true, Nat.testBit_xor, Nat.testBit_mod_two_pow, Nat.testBit_two_pow]
        by_cases hi : i = k
        · subst hi; simp [hb]
        · have e : (i < k + 1) ↔ i < k := by omega
          simp [Ne.symm hi, e]
      · simp only [hb, Bool.false_eq_true, if_false, Nat.testBit_mod_two_pow]
        by_cases hi : i = k
        · subst hi; simp [hb]
        · have e : (i < k + 1) ↔ i < k := by omega
          simp [e]
    · simp [h]

/-- Every output slot of a `c`-bit codeword has its data position. -/
theorem exists_dataPos {j c : Nat} (hj : j < nData c) : ∃ y, y < c ∧ dataPos (y + 1) = true ∧ nData y = j := by
  induction c with
  | zero => simp at hj
  | succ c ih =>
    by_cases h : j < nData c
    · obtain ⟨y, a, b⟩ := ih h
      exact ⟨y, by omega, b⟩
    · by_cases hd : dataPos (c + 1) = true
      · rw [nData_succ_of_data hd] at hj
        exact ⟨c, by omega, hd, by omega⟩
      · rw [nData_succ_of_not hd] at hj
        exact absurd hj h

end Sys2Proof.Machine
end

