-- ==== Sys2Proof/Laws/Memory.lean ====
section
/-! SUPPORT. The laws of buffer memory: a read after a write, the canonical form kept by every operation, and
the laws of single bits. -/

namespace Sys2Proof.Machine

/-! ### Bytes -/

theorem get?_write (m : Memory) (a c : Nat) (b : Byte) :
    Memory.get? (Memory.write m a b) c = if c = a then some b else Memory.get? m c := by
  induction m with
  | nil => simp [Memory.write, Memory.get?]
  | cons e rest ih =>
    obtain ⟨k, v⟩ := e
    unfold Memory.write
    split
    · simp [Memory.get?]
    · split
      · subst_vars
        by_cases h : c = k <;> simp [Memory.get?, h]
      · rename_i hlt hne
        by_cases h : c = k
        · subst h
          simp [Memory.get?, Ne.symm hne]
        · simp [Memory.get?, h, ih]

/-- MemRead after MemWrite. -/
theorem read_write (m : Memory) (a c : Nat) (b : Byte) :
    Memory.read (Memory.write m a b) c = if c = a then b else Memory.read m c := by
  unfold Memory.read
  rw [get?_write]
  split <;> rfl

@[simp] theorem read_write_same (m : Memory) (a : Nat) (b : Byte) :
    Memory.read (Memory.write m a b) a = b := by simp [read_write]

theorem read_write_other (m : Memory) {a c : Nat} (b : Byte) (h : c ≠ a) :
    Memory.read (Memory.write m a b) c = Memory.read m c := by simp [read_write, h]

theorem wfFrom_write (lo : Nat) (m : Memory) (a : Nat) (b : Byte) (hlo : lo ≤ a)
    (h : Memory.wfFrom lo m = true) : Memory.wfFrom lo (Memory.write m a b) = true := by
  induction m generalizing lo with
  | nil => simp [Memory.write, Memory.wfFrom, hlo]
  | cons e rest ih =>
    obtain ⟨k, v⟩ := e
    simp only [Memory.wfFrom, Bool.and_eq_true, decide_eq_true_eq] at h
    unfold Memory.write
    split
    · simp only [Memory.wfFrom, Bool.and_eq_true, decide_eq_true_eq]
      exact ⟨hlo, by omega, h.2⟩
    · split
      · subst_vars
        simp only [Memory.wfFrom, Bool.and_eq_true, decide_eq_true_eq]
        exact ⟨hlo, h.2⟩
      · simp only [Memory.wfFrom, Bool.and_eq_true, decide_eq_true_eq]
        exact ⟨h.1, ih (k + 1) (by omega) h.2⟩

/-- A write keeps the canonical form. -/
theorem wf_write (m : Memory) (a : Nat) (b : Byte) (h : Memory.wf m = true) :
    Memory.wf (Memory.write m a b) = true := wfFrom_write 0 m a b (Nat.zero_le _) h

theorem inside_write (n : Nat) (m : Memory) (a : Nat) (b : Byte) (ha : a < n)
    (h : Memory.inside n m = true) : Memory.inside n (Memory.write m a b) = true := by
  induction m with
  | nil => simp [Memory.write, Memory.inside, ha]
  | cons e rest ih =>
    obtain ⟨k, v⟩ := e
    simp only [Memory.inside, Bool.and_eq_true, decide_eq_true_eq] at h
    unfold Memory.write
    split
    · simp [Memory.inside, ha, h.1, h.2]
    · split
      · simp [Memory.inside, ha, h.2]
      · simp [Memory.inside, h.1, ih h.2]

theorem wf_drawAll (as : List Nat) (k : Nat) (m : Memory) (h : Memory.wf m = true) :
    Memory.wf (Memory.drawAll as k m) = true := by
  induction as generalizing k m with
  | nil => exact h
  | cons a rest ih => exact ih _ _ (wf_write _ _ _ h)

theorem inside_drawAll (n : Nat) (as : List Nat) (k : Nat) (m : Memory) (has : ∀ a ∈ as, a < n)
    (h : Memory.inside n m = true) : Memory.inside n (Memory.drawAll as k m) = true := by
  induction as generalizing k m with
  | nil => exact h
  | cons a rest ih =>
    exact ih _ _ (fun x hx => has x (List.mem_cons_of_mem _ hx)) (inside_write n m a _ (has a (by simp)) h)

/-- A draw leaves every address it does not name. -/
theorem read_drawAll_other (as : List Nat) (k : Nat) (m : Memory) (c : Nat) (h : c ∉ as) :
    Memory.read (Memory.drawAll as k m) c = Memory.read m c := by
  induction as generalizing k m with
  | nil => rfl
  | cons a rest ih =>
    simp only [List.mem_cons, not_or] at h
    simp only [Memory.drawAll]
    rw [ih _ _ h.2, read_write_other _ _ h.1]

/-! ### Bits -/

/-- A set bit of a byte is its own position. -/
theorem getLsbD_bitAt (b : Bool) (k j : Nat) (hk : k < 8) (hj : j < 8) :
    (bitAt b k).getLsbD j = (decide (j = k) && b) := by
  unfold bitAt
  cases b <;> interval_cases k <;> interval_cases j <;> rfl

/-- Bit `k` of byte `a` after a bit write. -/
theorem bit_bitWrite (m : Memory) (base i : Nat) (b : Bool) (a k : Nat) (hk : k < 8) :
    (Memory.read (bitWrite m base i b) a).getLsbD k =
      if a = base + i / 8 ∧ k = i % 8 then b else (Memory.read m a).getLsbD k := by
  have hi : i % 8 < 8 := Nat.mod_lt _ (by decide)
  unfold bitWrite
  rw [read_write]
  by_cases ha : a = base + i / 8
  · subst ha
    simp only [if_true, true_and, BitVec.getLsbD_or, BitVec.getLsbD_and, BitVec.getLsbD_not,
      getLsbD_bitAt _ _ _ hi hk, hk, decide_true, Bool.true_and]
    by_cases h : k = i % 8 <;> simp [h]
  · simp [ha]

/-- Bit `k` of byte `a` after a bit flip. -/
theorem bit_bitFlip (m : Memory) (base i : Nat) (a k : Nat) (hk : k < 8) :
    (Memory.read (bitFlip m base i) a).getLsbD k =
      if a = base + i / 8 ∧ k = i % 8 then !(Memory.read m a).getLsbD k else (Memory.read m a).getLsbD k := by
  have hi : i % 8 < 8 := Nat.mod_lt _ (by decide)
  unfold bitFlip
  rw [read_write]
  by_cases ha : a = base + i / 8
  · subst ha
    simp only [if_true, true_and, BitVec.getLsbD_xor, getLsbD_bitAt _ _ _ hi hk]
    by_cases h : k = i % 8 <;> simp [h]
  · simp [ha]

/-- BitRead after BitWrite in one buffer. -/
theorem bitRead_bitWrite (m : Memory) (base i j : Nat) (b : Bool) :
    bitRead (bitWrite m base i b) base j = if j = i then b else bitRead m base j := by
  unfold bitRead
  rw [bit_bitWrite _ _ _ _ _ _ (Nat.mod_lt _ (by decide))]
  by_cases h : j = i
  · simp [h]
  · rw [if_neg, if_neg h]
    omega

/-- BitRead after BitFlip in one buffer. -/
theorem bitRead_bitFlip (m : Memory) (base i j : Nat) :
    bitRead (bitFlip m base i) base j = if j = i then !bitRead m base j else bitRead m base j := by
  unfold bitRead
  rw [bit_bitFlip _ _ _ _ _ (Nat.mod_lt _ (by decide))]
  by_cases h : j = i
  · simp [h]
  · rw [if_neg, if_neg h]
    omega

/-- A bit write leaves every other byte. -/
theorem read_bitWrite_other (m : Memory) (base i : Nat) (b : Bool) (a : Nat) (h : a ≠ base + i / 8) :
    Memory.read (bitWrite m base i b) a = Memory.read m a := by
  unfold bitWrite; exact read_write_other _ _ h

/-- A bit flip leaves every other byte. -/
theorem read_bitFlip_other (m : Memory) (base i : Nat) (a : Nat) (h : a ≠ base + i / 8) :
    Memory.read (bitFlip m base i) a = Memory.read m a := by
  unfold bitFlip; exact read_write_other _ _ h

theorem wf_bitWrite (m : Memory) (base i : Nat) (b : Bool) (h : Memory.wf m = true) :
    Memory.wf (bitWrite m base i b) = true := wf_write _ _ _ h

theorem wf_bitFlip (m : Memory) (base i : Nat) (h : Memory.wf m = true) :
    Memory.wf (bitFlip m base i) = true := wf_write _ _ _ h

theorem inside_bitWrite (n : Nat) (m : Memory) (base i : Nat) (b : Bool) (hi : base + i / 8 < n)
    (h : Memory.inside n m = true) : Memory.inside n (bitWrite m base i b) = true := inside_write _ _ _ _ hi h

theorem inside_bitFlip (n : Nat) (m : Memory) (base i : Nat) (hi : base + i / 8 < n)
    (h : Memory.inside n m = true) : Memory.inside n (bitFlip m base i) = true := inside_write _ _ _ _ hi h

/-- A bit read sees only its byte. -/
theorem bitRead_congr (m m' : Memory) (base i : Nat)
    (h : Memory.read m (base + i / 8) = Memory.read m' (base + i / 8)) : bitRead m base i = bitRead m' base i := by
  unfold bitRead; rw [h]

end Sys2Proof.Machine
end

