-- ==== Sys2Proof/Laws/Walks.lean ====
section
/-! SUPPORT. What the loops of ENCODE, DECODE and CORRECT leave: the counts, the accumulator, the bits they
write and the bits they leave. `Apart` is the absence of OVERLAP, bit by bit. -/

namespace Sys2Proof.Machine

/-- No byte of the first `n` input bits is a byte of the first `l` output bits. -/
def Apart (src n dst l : Nat) : Prop := ∀ x, x < n → ∀ y, y < l → src + x / 8 ≠ dst + y / 8

/-- Bit `k` of byte `a` is none of the bits `[lo, hi)` of the buffer at `dst`. -/
def OffBits (dst lo hi a k : Nat) : Prop := ∀ y, lo ≤ y → y < hi → ¬(a = dst + y / 8 ∧ k = y % 8)

/-- A bit of a buffer beyond the written ones is off them. -/
theorem offBits_self {dst lo hi y : Nat} (h : y < lo ∨ hi ≤ y) : OffBits dst lo hi (dst + y / 8) (y % 8) := by
  rintro z hz1 hz2 ⟨h1, h2⟩
  omega

/-- An input bit apart from the output is off the output bits. -/
theorem Apart.offBits {src n dst l x lo : Nat} (h : Apart src n dst l) (hx : x < n) :
    OffBits dst lo l (src + x / 8) (x % 8) := fun y _ hy e => h x hx y hy e.1

/-! ### DECODE -/

theorem decodeWalk_bits (src dst left i acc : Nat) (m : Memory) :
    (decodeWalk src dst left i (nData i) acc m).bits = nData (i + left) := by
  induction left generalizing i acc m with
  | zero => rfl
  | succ left ih =>
    simp only [decodeWalk]
    rw [show i + (left + 1) = i + 1 + left by omega]
    split
    · rename_i h
      have e := nData_succ_of_data h
      rw [← e, ih]
    · rename_i h
      have e := nData_succ_of_not h
      rw [← e, ih]

/-- The loop of DECODE changes no bit but its output bits. -/
theorem decodeWalk_bit_off (src dst left i acc : Nat) (m : Memory) (a k : Nat) (hk : k < 8)
    (h : OffBits dst (nData i) (nData (i + left)) a k) :
    (Memory.read (decodeWalk src dst left i (nData i) acc m).mem a).getLsbD k = (Memory.read m a).getLsbD k := by
  induction left generalizing i acc m with
  | zero => rfl
  | succ left ih =>
    simp only [decodeWalk]
    rw [show i + (left + 1) = i + 1 + left by omega] at h
    split
    · rename_i hd
      have e := nData_succ_of_data hd
      have hm := nData_mono (show i + 1 ≤ i + 1 + left by omega)
      rw [← e, ih _ _ _ (fun y hy => h y (by omega)), bit_bitWrite _ _ _ _ _ _ hk,
        if_neg (h (nData i) (Nat.le_refl _) (by omega))]
    · rename_i hd
      have e := nData_succ_of_not hd
      rw [← e, ih _ _ _ (fun y hy => h y (by omega))]

/-- The accumulator never outgrows the positions. -/
theorem decodeWalk_synd_lt (src dst left i k acc w : Nat) (m : Memory) (hacc : acc < 2 ^ w) (hi : i + left < 2 ^ w) :
    (decodeWalk src dst left i k acc m).synd < 2 ^ w := by
  induction left generalizing i k acc m with
  | zero => exact hacc
  | succ left ih =>
    have step : (if bitRead m src i then acc ^^^ (i + 1) else acc) < 2 ^ w := by
      split
      · exact Nat.xor_lt_two_pow hacc (by omega)
      · exact hacc
    simp only [decodeWalk]
    split
    · exact ih _ _ _ _ step (by omega)
    · exact ih _ _ _ _ step (by omega)

/-- The loop of DECODE computes the XOR of the positions of the set bits and copies the data bits. -/
theorem decodeWalk_spec (src dst c : Nat) (f : Nat → Bool) (hap : Apart src c dst (nData c))
    (left i : Nat) (m : Memory) (hc : i + left = c) (hm : ∀ x, i ≤ x → x < c → bitRead m src x = f x) :
    (decodeWalk src dst left i (nData i) (xorPositions f i) m).synd = xorPositions f c ∧
      ∀ x, i ≤ x → x < c → dataPos (x + 1) = true →
        bitRead (decodeWalk src dst left i (nData i) (xorPositions f i) m).mem dst (nData x) = f x := by
  induction left generalizing i m with
  | zero =>
    subst hc
    exact ⟨rfl, fun x h1 h2 => by omega⟩
  | succ left ih =>
    have hi : i < c := by omega
    have hx := xorPositions_succ f i
    simp only [decodeWalk, hm i (Nat.le_refl _) hi]
    rw [← hx]
    split
    · rename_i hd
      have e := nData_succ_of_data hd
      have keep : ∀ x, i + 1 ≤ x → x < c → bitRead (bitWrite m dst (nData i) (f i)) src x = f x := by
        intro x h1 h2
        rw [← hm x (by omega) h2]
        exact bitRead_congr _ _ _ _ (read_bitWrite_other _ _ _ _ _ (hap x h2 _ (nData_lt_of_dataPos hi hd)))
      obtain ⟨a, b⟩ := ih (i + 1) _ (by omega) keep
      rw [← e]
      refine ⟨a, fun x h1 h2 h3 => ?_⟩
      by_cases hxi : x = i
      · subst hxi
        have off := decodeWalk_bit_off src dst left (x + 1) (xorPositions f (x + 1)) (bitWrite m dst (nData x) (f x))
          (dst + nData x / 8) (nData x % 8) (Nat.mod_lt _ (by decide)) (offBits_self (Or.inl (by omega)))
        have w := bitRead_bitWrite m dst (nData x) (nData x) (f x)
        rw [if_pos rfl] at w
        unfold bitRead at w ⊢
        rw [off, w]
      · exact b x (by omega) h2 h3
    · rename_i hd
      have e := nData_succ_of_not hd
      obtain ⟨a, b⟩ := ih (i + 1) m (by omega) (fun x h1 h2 => hm x (by omega) h2)
      rw [← e]
      refine ⟨a, fun x h1 h2 h3 => ?_⟩
      by_cases hxi : x = i
      · subst hxi; exact absurd h3 hd
      · exact b x (by omega) h2 h3

/-! ### ENCODE, first loop -/

theorem encodeWalk_bits (src dst n fuel i acc : Nat) (m : Memory) (h : i + fuel = lenc n) :
    (encodeWalk src dst n fuel i (nData i) acc m).bits = lenc n := by
  induction fuel generalizing i acc m with
  | zero => exact h
  | succ fuel ih =>
    simp only [encodeWalk]
    rw [if_pos (nData_lt_of_lt_lenc (show i < lenc n by omega))]
    split
    · rename_i hd
      have e := nData_succ_of_data hd
      rw [← e]
      exact ih _ _ _ (by omega)
    · rename_i hd
      have e := nData_succ_of_not hd
      rw [← e]
      exact ih _ _ _ (by omega)

/-- The first loop of ENCODE changes no bit but its output bits. -/
theorem encodeWalk_bit_off (src dst n fuel i j acc : Nat) (m : Memory) (a k : Nat) (hk : k < 8)
    (h : OffBits dst i (i + fuel) a k) :
    (Memory.read (encodeWalk src dst n fuel i j acc m).mem a).getLsbD k = (Memory.read m a).getLsbD k := by
  induction fuel generalizing i j acc m with
  | zero => rfl
  | succ fuel ih =>
    have h' : OffBits dst (i + 1) (i + 1 + fuel) a k := fun y h1 h2 => h y (by omega) (by omega)
    simp only [encodeWalk]
    split
    · split
      · rw [ih _ _ _ _ h', bit_bitWrite _ _ _ _ _ _ hk, if_neg (h i (Nat.le_refl _) (by omega))]
      · exact ih _ _ _ _ h'
    · rfl

/-- The first loop of ENCODE places the data bits and accumulates the positions that hold a 1 (R114 to R116). -/
theorem encodeWalk_spec (src dst n : Nat) (f : Nat → Bool) (hap : Apart src n dst (lenc n))
    (fuel i : Nat) (m : Memory) (hl : i + fuel = lenc n) (hm : ∀ x, nData i ≤ x → x < n → bitRead m src x = f x) :
    (encodeWalk src dst n fuel i (nData i) (xorPositions (fun q => dataPos (q + 1) && f (nData q)) i) m).synd =
        xorPositions (fun q => dataPos (q + 1) && f (nData q)) (lenc n) ∧
      ∀ q, i ≤ q → q < lenc n → dataPos (q + 1) = true →
        bitRead (encodeWalk src dst n fuel i (nData i) (xorPositions (fun q => dataPos (q + 1) && f (nData q)) i) m).mem
          dst q = f (nData q) := by
  induction fuel generalizing i m with
  | zero =>
    rw [Nat.add_zero] at hl
    subst hl
    exact ⟨rfl, fun q h1 h2 => by omega⟩
  | succ fuel ih =>
    have hi : i < lenc n := by omega
    have hj := nData_lt_of_lt_lenc hi
    have hx := xorPositions_succ (fun q => dataPos (q + 1) && f (nData q)) i
    simp only [encodeWalk, hm _ (Nat.le_refl _) hj]
    rw [if_pos hj]
    split
    · rename_i hd
      have e := nData_succ_of_data hd
      simp only [hd, Bool.true_and] at hx
      have keep : ∀ x, nData (i + 1) ≤ x → x < n → bitRead (bitWrite m dst i (f (nData i))) src x = f x := by
        intro x h1 h2
        rw [← hm x (by omega) h2]
        exact bitRead_congr _ _ _ _ (read_bitWrite_other _ _ _ _ _ (hap x h2 _ hi))
      obtain ⟨a, b⟩ := ih (i + 1) _ (by omega) keep
      rw [← e, ← hx]
      refine ⟨a, fun q h1 h2 h3 => ?_⟩
      by_cases hq : q = i
      · subst hq
        have off := encodeWalk_bit_off src dst n fuel (q + 1) (nData (q + 1))
          (xorPositions (fun q => dataPos (q + 1) && f (nData q)) (q + 1)) (bitWrite m dst q (f (nData q)))
          (dst + q / 8) (q % 8) (Nat.mod_lt _ (by decide)) (offBits_self (Or.inl (by omega)))
        have w := bitRead_bitWrite m dst q q (f (nData q))
        rw [if_pos rfl] at w
        unfold bitRead at w ⊢
        rw [off, w]
      · exact b q (by omega) h2 h3
    · rename_i hd
      have e := nData_succ_of_not hd
      simp only [hd, Bool.false_and, Bool.false_eq_true, if_false] at hx
      obtain ⟨a, b⟩ := ih (i + 1) m (by omega) (fun x h1 h2 => hm x (by omega) h2)
      rw [← e, ← hx]
      refine ⟨a, fun q h1 h2 h3 => ?_⟩
      by_cases hq : q = i
      · subst hq; exact absurd h3 hd
      · exact b q (by omega) h2 h3

/-! ### ENCODE, second loop -/

/-- The parity pass writes only parity bits. -/
theorem parityPass_bit_off (dst len acc fuel k : Nat) (m : Memory) (a c : Nat) (hc : c < 8)
    (h : ∀ q, k ≤ q → 2 ^ q - 1 < len → ¬(a = dst + (2 ^ q - 1) / 8 ∧ c = (2 ^ q - 1) % 8)) :
    (Memory.read (parityPass dst len acc fuel k m) a).getLsbD c = (Memory.read m a).getLsbD c := by
  induction fuel generalizing k m with
  | zero => rfl
  | succ fuel ih =>
    simp only [parityPass]
    split
    · rename_i hk
      rw [ih _ _ (fun q hq => h q (by omega)), bit_bitWrite _ _ _ _ _ _ hc, if_neg (h k (Nat.le_refl _) hk)]
    · rfl

/-- The parity pass gives the parity position `2^q` bit `q` of the accumulator (R114, R117). -/
theorem parityPass_parity (dst len acc fuel k : Nat) (m : Memory) (q : Nat) (hq : k ≤ q) (hf : q < k + fuel)
    (hl : k + fuel = nPar len) :
    bitRead (parityPass dst len acc fuel k m) dst (2 ^ q - 1) = acc.testBit q := by
  induction fuel generalizing k m with
  | zero => omega
  | succ fuel ih =>
    have pos : ∀ r, 1 ≤ 2 ^ r := fun r => Nat.one_le_two_pow
    have hk : 2 ^ k - 1 < len := by
      have := (lt_nPar_iff k len).1 (by omega)
      have := pos k
      omega
    simp only [parityPass]
    rw [if_pos hk]
    by_cases hqk : q = k
    · subst hqk
      have off := parityPass_bit_off dst len acc fuel (q + 1) (bitWrite m dst (2 ^ q - 1) (acc.testBit q))
        (dst + (2 ^ q - 1) / 8) ((2 ^ q - 1) % 8) (Nat.mod_lt _ (by decide)) (by
          rintro r hr - ⟨h1, h2⟩
          have := (Nat.pow_lt_pow_iff_right (by decide : 1 < 2)).2 (show q < r by omega)
          have := pos q
          omega)
      have w := bitRead_bitWrite m dst (2 ^ q - 1) (2 ^ q - 1) (acc.testBit q)
      rw [if_pos rfl] at w
      unfold bitRead at w ⊢
      rw [off, w]
    · exact ih (k + 1) _ (by omega) (by omega) (by omega)

/-- The parity pass leaves the data positions. -/
theorem parityPass_data (dst len acc fuel : Nat) (m : Memory) (y : Nat) (hd : dataPos (y + 1) = true) :
    bitRead (parityPass dst len acc fuel 0 m) dst y = bitRead m dst y := by
  unfold bitRead
  refine parityPass_bit_off _ _ _ _ _ _ _ _ (Nat.mod_lt _ (by decide)) ?_
  rintro q - - ⟨h1, h2⟩
  have := Nat.one_le_two_pow (n := q)
  have e : y + 1 = 2 ^ q := by omega
  rw [dataPos_succ, e, isPow2_two_pow] at hd
  simp at hd

/-! ### Canonical form -/

theorem wf_decodeWalk (src dst left i k acc : Nat) (m : Memory) (h : Memory.wf m = true) :
    Memory.wf (decodeWalk src dst left i k acc m).mem = true := by
  induction left generalizing i k acc m with
  | zero => exact h
  | succ left ih =>
    simp only [decodeWalk]
    split
    · exact ih _ _ _ _ (wf_bitWrite _ _ _ _ h)
    · exact ih _ _ _ _ h

theorem inside_decodeWalk (b src dst left i acc : Nat) (m : Memory)
    (hb : ∀ y, y < nData (i + left) → dst + y / 8 < b) (h : Memory.inside b m = true) :
    Memory.inside b (decodeWalk src dst left i (nData i) acc m).mem = true := by
  induction left generalizing i acc m with
  | zero => exact h
  | succ left ih =>
    rw [show i + (left + 1) = i + 1 + left by omega] at hb
    simp only [decodeWalk]
    split
    · rename_i hd
      have e := nData_succ_of_data hd
      have hm := nData_mono (show i + 1 ≤ i + 1 + left by omega)
      rw [← e]
      exact ih _ _ _ hb (inside_bitWrite _ _ _ _ _ (hb _ (by omega)) h)
    · rename_i hd
      have e := nData_succ_of_not hd
      rw [← e]
      exact ih _ _ _ hb h

theorem wf_encodeWalk (src dst n fuel i j acc : Nat) (m : Memory) (h : Memory.wf m = true) :
    Memory.wf (encodeWalk src dst n fuel i j acc m).mem = true := by
  induction fuel generalizing i j acc m with
  | zero => exact h
  | succ fuel ih =>
    simp only [encodeWalk]
    split
    · split
      · exact ih _ _ _ _ (wf_bitWrite _ _ _ _ h)
      · exact ih _ _ _ _ h
    · exact h

theorem inside_encodeWalk (b src dst n fuel i j acc : Nat) (m : Memory) (hb : ∀ y, y < i + fuel → dst + y / 8 < b)
    (h : Memory.inside b m = true) : Memory.inside b (encodeWalk src dst n fuel i j acc m).mem = true := by
  induction fuel generalizing i j acc m with
  | zero => exact h
  | succ fuel ih =>
    simp only [encodeWalk]
    split
    · split
      · exact ih _ _ _ _ (fun y hy => hb y (by omega)) (inside_bitWrite _ _ _ _ _ (hb _ (by omega)) h)
      · exact ih _ _ _ _ (fun y hy => hb y (by omega)) h
    · exact h

theorem wf_parityPass (dst len acc fuel k : Nat) (m : Memory) (h : Memory.wf m = true) :
    Memory.wf (parityPass dst len acc fuel k m) = true := by
  induction fuel generalizing k m with
  | zero => exact h
  | succ fuel ih =>
    simp only [parityPass]
    split
    · exact ih _ _ (wf_bitWrite _ _ _ _ h)
    · exact h

theorem inside_parityPass (b dst len acc fuel k : Nat) (m : Memory) (hb : ∀ y, y < len → dst + y / 8 < b)
    (h : Memory.inside b m = true) : Memory.inside b (parityPass dst len acc fuel k m) = true := by
  induction fuel generalizing k m with
  | zero => exact h
  | succ fuel ih =>
    simp only [parityPass]
    split
    · rename_i hk
      exact ih _ _ (inside_bitWrite _ _ _ _ _ (hb _ hk) h)
    · exact h

end Sys2Proof.Machine
end

