-- ==== Sys2Proof/Laws/Operands.lean ====
section
/-! SUPPORT. Byte ranges and issue checks: the arithmetic tests say what the sets of R60 say. -/

namespace Sys2Proof.Machine

theorem ByteRange.has_iff (r : ByteRange) (a : Nat) : r.has a = true ↔ r.base ≤ a ∧ a < r.base + r.len := by
  simp [ByteRange.has]

/-- A range that does not leave memory has only bytes of memory. -/
theorem ByteRange.leaves_eq_false_iff (r : ByteRange) (b : Nat) :
    r.leaves b = false ↔ ∀ a, r.has a = true → a < b := by
  simp only [ByteRange.leaves, Bool.and_eq_false_iff, decide_eq_false_iff_not, ByteRange.has_iff]
  constructor
  · rintro h a ⟨h1, h2⟩
    omega
  · intro h
    by_cases hl : r.len = 0
    · left; omega
    · right
      have := h (r.base + r.len - 1) ⟨by omega, by omega⟩
      omega

/-- Ranges that do not meet share no byte. -/
theorem ByteRange.meets_eq_false_iff (r t : ByteRange) :
    r.meets t = false ↔ ∀ a, r.has a = true → ¬t.has a = true := by
  simp only [ByteRange.meets, Bool.and_eq_false_iff, decide_eq_false_iff_not, ByteRange.has_iff]
  constructor
  · rintro h a ⟨h1, h2⟩ ⟨h3, h4⟩
    omega
  · intro h
    by_cases h1 : r.len = 0
    · omega
    by_cases h2 : t.len = 0
    · omega
    have := h (max r.base t.base)
    omega

theorem div8_lt_nbytes {y b : Nat} (h : y < b) : y / 8 < nbytes b := by
  unfold nbytes; omega

/-- The checks of an issue, one by one. -/
theorem issueFault_none_iff (c : Config) (p : Pending) :
    p.issueFault c = none ↔ p.overflows c = false ∧ p.leavesMemory c = false ∧ p.overlaps = false := by
  unfold Pending.issueFault
  cases p.overflows c <;> cases p.leavesMemory c <;> cases p.overlaps <;> simp

/-- An issue check records one of three codes. -/
theorem issueFault_some_cases {c : Config} {p : Pending} {f : FaultCode} (h : p.issueFault c = some f) :
    f = FaultCode.countOverflow ∨ f = FaultCode.range ∨ f = FaultCode.overlap := by
  unfold Pending.issueFault at h
  split at h
  · simp_all
  · split at h
    · simp_all
    · split at h <;> simp_all

theorem Pending.in_lt {c : Config} {p : Pending} (h : p.leavesMemory c = false) {a : Nat}
    (ha : p.inBytes.has a = true) : a < c.memBytes := by
  unfold Pending.leavesMemory at h
  rw [Bool.or_eq_false_iff] at h
  exact (ByteRange.leaves_eq_false_iff _ _).1 h.1 a ha

theorem Pending.out_lt {c : Config} {p : Pending} (h : p.leavesMemory c = false) {a : Nat}
    (ha : p.outBytes.has a = true) : a < c.memBytes := by
  unfold Pending.leavesMemory at h
  rw [Bool.or_eq_false_iff] at h
  exact (ByteRange.leaves_eq_false_iff _ _).1 h.2 a ha

/-- How many bits, from index 0, a codeword command writes to its output. -/
def outBits (i : Instr) (cnt : Nat) : Nat :=
  match i with
  | .encode => lenc cnt
  | .decode => nData cnt
  | .correct => nData cnt
  | .getBit => 0
  | .setBit _ => 0
  | .flipBit => 0

/-- The byte of an output bit is an output byte. -/
theorem Pending.outBits_has (p : Pending) {y : Nat} (h : y < outBits p.cmd p.cnt.toNat) :
    p.outBytes.has (p.dst.toNat + y / 8) = true := by
  have := div8_lt_nbytes h
  rw [ByteRange.has_iff]
  unfold Pending.outBytes Sys2Proof.Machine.outBytes
  unfold outBits at h this
  cases hc : p.cmd <;> simp only [hc] at h this ⊢ <;> omega

/-- A bit command's byte is its output byte. -/
theorem Pending.bit_has (p : Pending) (h : p.cmd = .getBit ∨ (∃ v, p.cmd = .setBit v) ∨ p.cmd = .flipBit) :
    p.outBytes.has (p.dst.toNat + p.cnt.toNat / 8) = true := by
  rw [ByteRange.has_iff]
  unfold Pending.outBytes Sys2Proof.Machine.outBytes
  obtain h | ⟨v, h⟩ | h := h <;> simp only [h] <;> omega

/-- Without OVERLAP the input bits and the output bits of a codeword command are apart. -/
theorem Pending.apart {p : Pending} (h : p.overlaps = false) :
    Apart p.src.toNat (inBits p.cmd p.cnt.toNat) p.dst.toNat (outBits p.cmd p.cnt.toNat) := by
  intro x hx y hy e
  have hin : p.inBytes.has (p.src.toNat + x / 8) = true := by
    have := div8_lt_nbytes hx
    rw [ByteRange.has_iff]
    unfold Pending.inBytes Sys2Proof.Machine.inBytes
    simp only
    omega
  exact (ByteRange.meets_eq_false_iff _ _).1 h _ hin (e ▸ p.outBits_has hy)

/-- RANGE is not raised exactly when every footprint byte is a byte of memory (R173). -/
theorem leavesMemory_eq_false_iff (c : Config) (p : Pending) :
    p.leavesMemory c = false ↔ ∀ a, p.touches a = true → a < c.memBytes := by
  constructor
  · intro h a ha
    simp only [Pending.touches, Bool.or_eq_true] at ha
    exact ha.elim (Pending.in_lt h) (Pending.out_lt h)
  · intro h
    unfold Pending.leavesMemory
    rw [Bool.or_eq_false_iff, ByteRange.leaves_eq_false_iff, ByteRange.leaves_eq_false_iff]
    exact ⟨fun a ha => h a (by simp [Pending.touches, ha]), fun a ha => h a (by simp [Pending.touches, ha])⟩

/-- OVERLAP is not raised exactly when input and output share no byte (R174). -/
theorem overlaps_eq_false_iff (p : Pending) :
    p.overlaps = false ↔ ∀ a, p.inBytes.has a = true → p.outBytes.has a = false := by
  unfold Pending.overlaps
  rw [ByteRange.meets_eq_false_iff]
  simp only [Bool.not_eq_true]

/-- The bits of a narrow register (R32). -/
theorem getLsbD_keepLow (w : Nat) (v : Word) (j : Nat) :
    (keepLow w v).getLsbD j = (decide (j < w) && v.getLsbD j) := by
  unfold keepLow
  rw [BitVec.getLsbD_ofNat, Nat.testBit_mod_two_pow]
  by_cases h : j < 32
  · simp [h, BitVec.getLsbD]
  · simp only [h, decide_false, Bool.false_and]
    rw [BitVec.getLsbD_of_ge v j (by omega), Bool.and_false]

theorem keepLow_lt (w : Nat) (v : Word) : (keepLow w v).toNat < 2 ^ w := by
  unfold keepLow
  rw [BitVec.toNat_ofNat]
  exact lt_of_le_of_lt (Nat.mod_le _ _) (Nat.mod_lt _ (Nat.two_pow_pos w))

end Sys2Proof.Machine
end

