-- ==== Sys2Proof/Laws/State.lean ====
section
/-! SUPPORT. One lemma per field of State per named update, true by unfolding the update once, so that no proof
about an instruction unfolds a record update. -/

namespace Sys2Proof.Machine

variable (s : State)

/-! ### retire -/

@[simp] theorem retire_cfg : (s.retire).cfg = s.cfg := rfl
@[simp] theorem retire_dstAddr : (s.retire).dstAddr = s.dstAddr := rfl
@[simp] theorem retire_srcAddr : (s.retire).srcAddr = s.srcAddr := rfl
@[simp] theorem retire_count : (s.retire).count = s.count := rfl
@[simp] theorem retire_resCount : (s.retire).resCount = s.resCount := rfl
@[simp] theorem retire_resSynd : (s.retire).resSynd = s.resSynd := rfl
@[simp] theorem retire_resBit : (s.retire).resBit = s.resBit := rfl
@[simp] theorem retire_fault : (s.retire).fault = s.fault := rfl
@[simp] theorem retire_pending : (s.retire).pending = none := rfl
@[simp] theorem retire_mem : (s.retire).mem = s.mem := rfl
@[simp] theorem retire_mark : (s.retire).mark = s.mark := rfl
@[simp] theorem retire_raced : (s.retire).raced = s.raced := rfl
@[simp] theorem retire_draws : (s.retire).draws = s.draws := rfl
@[simp] theorem retire_response : (s.retire).response = s.response := rfl
@[simp] theorem retire_hostProg : (s.retire).hostProg = s.hostProg := rfl
@[simp] theorem retire_hostPc : (s.retire).hostPc = s.hostPc := rfl
@[simp] theorem retire_hostVars : (s.retire).hostVars = s.hostVars := rfl
@[simp] theorem retire_hostReads : (s.retire).hostReads = s.hostReads := rfl
@[simp] theorem retire_hostFailed : (s.retire).hostFailed = s.hostFailed := rfl
@[simp] theorem retire_schedule : (s.retire).schedule = s.schedule := rfl

/-! ### latch -/

@[simp] theorem latch_cfg (p : Pending) : (State.latch p s).cfg = s.cfg := rfl
@[simp] theorem latch_dstAddr (p : Pending) : (State.latch p s).dstAddr = s.dstAddr := rfl
@[simp] theorem latch_srcAddr (p : Pending) : (State.latch p s).srcAddr = s.srcAddr := rfl
@[simp] theorem latch_count (p : Pending) : (State.latch p s).count = s.count := rfl
@[simp] theorem latch_resCount (p : Pending) : (State.latch p s).resCount = s.resCount := rfl
@[simp] theorem latch_resSynd (p : Pending) : (State.latch p s).resSynd = s.resSynd := rfl
@[simp] theorem latch_resBit (p : Pending) : (State.latch p s).resBit = s.resBit := rfl
@[simp] theorem latch_fault (p : Pending) : (State.latch p s).fault = s.fault := rfl
@[simp] theorem latch_pending (p : Pending) : (State.latch p s).pending = some p := rfl
@[simp] theorem latch_mem (p : Pending) : (State.latch p s).mem = s.mem := rfl
@[simp] theorem latch_mark (p : Pending) : (State.latch p s).mark = s.mark := rfl
@[simp] theorem latch_raced (p : Pending) : (State.latch p s).raced = s.raced := rfl
@[simp] theorem latch_draws (p : Pending) : (State.latch p s).draws = s.draws := rfl
@[simp] theorem latch_response (p : Pending) : (State.latch p s).response = s.response := rfl
@[simp] theorem latch_hostProg (p : Pending) : (State.latch p s).hostProg = s.hostProg := rfl
@[simp] theorem latch_hostPc (p : Pending) : (State.latch p s).hostPc = s.hostPc := rfl
@[simp] theorem latch_hostVars (p : Pending) : (State.latch p s).hostVars = s.hostVars := rfl
@[simp] theorem latch_hostReads (p : Pending) : (State.latch p s).hostReads = s.hostReads := rfl
@[simp] theorem latch_hostFailed (p : Pending) : (State.latch p s).hostFailed = s.hostFailed := rfl
@[simp] theorem latch_schedule (p : Pending) : (State.latch p s).schedule = s.schedule := rfl

/-! ### setMem -/

@[simp] theorem setMem_cfg (m : Memory) : (State.setMem m s).cfg = s.cfg := rfl
@[simp] theorem setMem_dstAddr (m : Memory) : (State.setMem m s).dstAddr = s.dstAddr := rfl
@[simp] theorem setMem_srcAddr (m : Memory) : (State.setMem m s).srcAddr = s.srcAddr := rfl
@[simp] theorem setMem_count (m : Memory) : (State.setMem m s).count = s.count := rfl
@[simp] theorem setMem_resCount (m : Memory) : (State.setMem m s).resCount = s.resCount := rfl
@[simp] theorem setMem_resSynd (m : Memory) : (State.setMem m s).resSynd = s.resSynd := rfl
@[simp] theorem setMem_resBit (m : Memory) : (State.setMem m s).resBit = s.resBit := rfl
@[simp] theorem setMem_fault (m : Memory) : (State.setMem m s).fault = s.fault := rfl
@[simp] theorem setMem_pending (m : Memory) : (State.setMem m s).pending = s.pending := rfl
@[simp] theorem setMem_mem (m : Memory) : (State.setMem m s).mem = m := rfl
@[simp] theorem setMem_mark (m : Memory) : (State.setMem m s).mark = s.mark := rfl
@[simp] theorem setMem_raced (m : Memory) : (State.setMem m s).raced = s.raced := rfl
@[simp] theorem setMem_draws (m : Memory) : (State.setMem m s).draws = s.draws := rfl
@[simp] theorem setMem_response (m : Memory) : (State.setMem m s).response = s.response := rfl
@[simp] theorem setMem_hostProg (m : Memory) : (State.setMem m s).hostProg = s.hostProg := rfl
@[simp] theorem setMem_hostPc (m : Memory) : (State.setMem m s).hostPc = s.hostPc := rfl
@[simp] theorem setMem_hostVars (m : Memory) : (State.setMem m s).hostVars = s.hostVars := rfl
@[simp] theorem setMem_hostReads (m : Memory) : (State.setMem m s).hostReads = s.hostReads := rfl
@[simp] theorem setMem_hostFailed (m : Memory) : (State.setMem m s).hostFailed = s.hostFailed := rfl
@[simp] theorem setMem_schedule (m : Memory) : (State.setMem m s).schedule = s.schedule := rfl

/-! ### setResCount -/

@[simp] theorem setResCount_cfg (n : Nat) : (State.setResCount n s).cfg = s.cfg := rfl
@[simp] theorem setResCount_dstAddr (n : Nat) : (State.setResCount n s).dstAddr = s.dstAddr := rfl
@[simp] theorem setResCount_srcAddr (n : Nat) : (State.setResCount n s).srcAddr = s.srcAddr := rfl
@[simp] theorem setResCount_count (n : Nat) : (State.setResCount n s).count = s.count := rfl
@[simp] theorem setResCount_resCount (n : Nat) : (State.setResCount n s).resCount = BitVec.ofNat 32 n := rfl
@[simp] theorem setResCount_resSynd (n : Nat) : (State.setResCount n s).resSynd = s.resSynd := rfl
@[simp] theorem setResCount_resBit (n : Nat) : (State.setResCount n s).resBit = s.resBit := rfl
@[simp] theorem setResCount_fault (n : Nat) : (State.setResCount n s).fault = s.fault := rfl
@[simp] theorem setResCount_pending (n : Nat) : (State.setResCount n s).pending = s.pending := rfl
@[simp] theorem setResCount_mem (n : Nat) : (State.setResCount n s).mem = s.mem := rfl
@[simp] theorem setResCount_mark (n : Nat) : (State.setResCount n s).mark = s.mark := rfl
@[simp] theorem setResCount_raced (n : Nat) : (State.setResCount n s).raced = s.raced := rfl
@[simp] theorem setResCount_draws (n : Nat) : (State.setResCount n s).draws = s.draws := rfl
@[simp] theorem setResCount_response (n : Nat) : (State.setResCount n s).response = s.response := rfl
@[simp] theorem setResCount_hostProg (n : Nat) : (State.setResCount n s).hostProg = s.hostProg := rfl
@[simp] theorem setResCount_hostPc (n : Nat) : (State.setResCount n s).hostPc = s.hostPc := rfl
@[simp] theorem setResCount_hostVars (n : Nat) : (State.setResCount n s).hostVars = s.hostVars := rfl
@[simp] theorem setResCount_hostReads (n : Nat) : (State.setResCount n s).hostReads = s.hostReads := rfl
@[simp] theorem setResCount_hostFailed (n : Nat) : (State.setResCount n s).hostFailed = s.hostFailed := rfl
@[simp] theorem setResCount_schedule (n : Nat) : (State.setResCount n s).schedule = s.schedule := rfl

/-! ### setResSynd -/

@[simp] theorem setResSynd_cfg (n : Nat) : (State.setResSynd n s).cfg = s.cfg := rfl
@[simp] theorem setResSynd_dstAddr (n : Nat) : (State.setResSynd n s).dstAddr = s.dstAddr := rfl
@[simp] theorem setResSynd_srcAddr (n : Nat) : (State.setResSynd n s).srcAddr = s.srcAddr := rfl
@[simp] theorem setResSynd_count (n : Nat) : (State.setResSynd n s).count = s.count := rfl
@[simp] theorem setResSynd_resCount (n : Nat) : (State.setResSynd n s).resCount = s.resCount := rfl
@[simp] theorem setResSynd_resSynd (n : Nat) : (State.setResSynd n s).resSynd = BitVec.ofNat 32 n := rfl
@[simp] theorem setResSynd_resBit (n : Nat) : (State.setResSynd n s).resBit = s.resBit := rfl
@[simp] theorem setResSynd_fault (n : Nat) : (State.setResSynd n s).fault = s.fault := rfl
@[simp] theorem setResSynd_pending (n : Nat) : (State.setResSynd n s).pending = s.pending := rfl
@[simp] theorem setResSynd_mem (n : Nat) : (State.setResSynd n s).mem = s.mem := rfl
@[simp] theorem setResSynd_mark (n : Nat) : (State.setResSynd n s).mark = s.mark := rfl
@[simp] theorem setResSynd_raced (n : Nat) : (State.setResSynd n s).raced = s.raced := rfl
@[simp] theorem setResSynd_draws (n : Nat) : (State.setResSynd n s).draws = s.draws := rfl
@[simp] theorem setResSynd_response (n : Nat) : (State.setResSynd n s).response = s.response := rfl
@[simp] theorem setResSynd_hostProg (n : Nat) : (State.setResSynd n s).hostProg = s.hostProg := rfl
@[simp] theorem setResSynd_hostPc (n : Nat) : (State.setResSynd n s).hostPc = s.hostPc := rfl
@[simp] theorem setResSynd_hostVars (n : Nat) : (State.setResSynd n s).hostVars = s.hostVars := rfl
@[simp] theorem setResSynd_hostReads (n : Nat) : (State.setResSynd n s).hostReads = s.hostReads := rfl
@[simp] theorem setResSynd_hostFailed (n : Nat) : (State.setResSynd n s).hostFailed = s.hostFailed := rfl
@[simp] theorem setResSynd_schedule (n : Nat) : (State.setResSynd n s).schedule = s.schedule := rfl

/-! ### setResBit -/

@[simp] theorem setResBit_cfg (b : Bool) : (State.setResBit b s).cfg = s.cfg := rfl
@[simp] theorem setResBit_dstAddr (b : Bool) : (State.setResBit b s).dstAddr = s.dstAddr := rfl
@[simp] theorem setResBit_srcAddr (b : Bool) : (State.setResBit b s).srcAddr = s.srcAddr := rfl
@[simp] theorem setResBit_count (b : Bool) : (State.setResBit b s).count = s.count := rfl
@[simp] theorem setResBit_resCount (b : Bool) : (State.setResBit b s).resCount = s.resCount := rfl
@[simp] theorem setResBit_resSynd (b : Bool) : (State.setResBit b s).resSynd = s.resSynd := rfl
@[simp] theorem setResBit_resBit (b : Bool) : (State.setResBit b s).resBit = BitVec.ofBool b := rfl
@[simp] theorem setResBit_fault (b : Bool) : (State.setResBit b s).fault = s.fault := rfl
@[simp] theorem setResBit_pending (b : Bool) : (State.setResBit b s).pending = s.pending := rfl
@[simp] theorem setResBit_mem (b : Bool) : (State.setResBit b s).mem = s.mem := rfl
@[simp] theorem setResBit_mark (b : Bool) : (State.setResBit b s).mark = s.mark := rfl
@[simp] theorem setResBit_raced (b : Bool) : (State.setResBit b s).raced = s.raced := rfl
@[simp] theorem setResBit_draws (b : Bool) : (State.setResBit b s).draws = s.draws := rfl
@[simp] theorem setResBit_response (b : Bool) : (State.setResBit b s).response = s.response := rfl
@[simp] theorem setResBit_hostProg (b : Bool) : (State.setResBit b s).hostProg = s.hostProg := rfl
@[simp] theorem setResBit_hostPc (b : Bool) : (State.setResBit b s).hostPc = s.hostPc := rfl
@[simp] theorem setResBit_hostVars (b : Bool) : (State.setResBit b s).hostVars = s.hostVars := rfl
@[simp] theorem setResBit_hostReads (b : Bool) : (State.setResBit b s).hostReads = s.hostReads := rfl
@[simp] theorem setResBit_hostFailed (b : Bool) : (State.setResBit b s).hostFailed = s.hostFailed := rfl
@[simp] theorem setResBit_schedule (b : Bool) : (State.setResBit b s).schedule = s.schedule := rfl

/-! ### respond -/

@[simp] theorem respond_cfg (r : Response) : (State.respond r s).cfg = s.cfg := rfl
@[simp] theorem respond_dstAddr (r : Response) : (State.respond r s).dstAddr = s.dstAddr := rfl
@[simp] theorem respond_srcAddr (r : Response) : (State.respond r s).srcAddr = s.srcAddr := rfl
@[simp] theorem respond_count (r : Response) : (State.respond r s).count = s.count := rfl
@[simp] theorem respond_resCount (r : Response) : (State.respond r s).resCount = s.resCount := rfl
@[simp] theorem respond_resSynd (r : Response) : (State.respond r s).resSynd = s.resSynd := rfl
@[simp] theorem respond_resBit (r : Response) : (State.respond r s).resBit = s.resBit := rfl
@[simp] theorem respond_fault (r : Response) : (State.respond r s).fault = s.fault := rfl
@[simp] theorem respond_pending (r : Response) : (State.respond r s).pending = s.pending := rfl
@[simp] theorem respond_mem (r : Response) : (State.respond r s).mem = s.mem := rfl
@[simp] theorem respond_mark (r : Response) : (State.respond r s).mark = s.mark := rfl
@[simp] theorem respond_raced (r : Response) : (State.respond r s).raced = s.raced := rfl
@[simp] theorem respond_draws (r : Response) : (State.respond r s).draws = s.draws := rfl
@[simp] theorem respond_response (r : Response) : (State.respond r s).response = some r := rfl
@[simp] theorem respond_hostProg (r : Response) : (State.respond r s).hostProg = s.hostProg := rfl
@[simp] theorem respond_hostPc (r : Response) : (State.respond r s).hostPc = s.hostPc := rfl
@[simp] theorem respond_hostVars (r : Response) : (State.respond r s).hostVars = s.hostVars := rfl
@[simp] theorem respond_hostReads (r : Response) : (State.respond r s).hostReads = s.hostReads := rfl
@[simp] theorem respond_hostFailed (r : Response) : (State.respond r s).hostFailed = s.hostFailed := rfl
@[simp] theorem respond_schedule (r : Response) : (State.respond r s).schedule = s.schedule := rfl

/-! ### drew -/

@[simp] theorem drew_cfg (k : Nat) : (State.drew k s).cfg = s.cfg := rfl
@[simp] theorem drew_dstAddr (k : Nat) : (State.drew k s).dstAddr = s.dstAddr := rfl
@[simp] theorem drew_srcAddr (k : Nat) : (State.drew k s).srcAddr = s.srcAddr := rfl
@[simp] theorem drew_count (k : Nat) : (State.drew k s).count = s.count := rfl
@[simp] theorem drew_resCount (k : Nat) : (State.drew k s).resCount = s.resCount := rfl
@[simp] theorem drew_resSynd (k : Nat) : (State.drew k s).resSynd = s.resSynd := rfl
@[simp] theorem drew_resBit (k : Nat) : (State.drew k s).resBit = s.resBit := rfl
@[simp] theorem drew_fault (k : Nat) : (State.drew k s).fault = s.fault := rfl
@[simp] theorem drew_pending (k : Nat) : (State.drew k s).pending = s.pending := rfl
@[simp] theorem drew_mem (k : Nat) : (State.drew k s).mem = s.mem := rfl
@[simp] theorem drew_mark (k : Nat) : (State.drew k s).mark = s.mark := rfl
@[simp] theorem drew_raced (k : Nat) : (State.drew k s).raced = s.raced := rfl
@[simp] theorem drew_draws (k : Nat) : (State.drew k s).draws = s.draws + k := rfl
@[simp] theorem drew_response (k : Nat) : (State.drew k s).response = s.response := rfl
@[simp] theorem drew_hostProg (k : Nat) : (State.drew k s).hostProg = s.hostProg := rfl
@[simp] theorem drew_hostPc (k : Nat) : (State.drew k s).hostPc = s.hostPc := rfl
@[simp] theorem drew_hostVars (k : Nat) : (State.drew k s).hostVars = s.hostVars := rfl
@[simp] theorem drew_hostReads (k : Nat) : (State.drew k s).hostReads = s.hostReads := rfl
@[simp] theorem drew_hostFailed (k : Nat) : (State.drew k s).hostFailed = s.hostFailed := rfl
@[simp] theorem drew_schedule (k : Nat) : (State.drew k s).schedule = s.schedule := rfl

/-! ### clearRegisters -/

@[simp] theorem clearRegisters_cfg : (s.clearRegisters).cfg = s.cfg := rfl
@[simp] theorem clearRegisters_dstAddr : (s.clearRegisters).dstAddr = 0 := rfl
@[simp] theorem clearRegisters_srcAddr : (s.clearRegisters).srcAddr = 0 := rfl
@[simp] theorem clearRegisters_count : (s.clearRegisters).count = 0 := rfl
@[simp] theorem clearRegisters_resCount : (s.clearRegisters).resCount = 0 := rfl
@[simp] theorem clearRegisters_resSynd : (s.clearRegisters).resSynd = 0 := rfl
@[simp] theorem clearRegisters_resBit : (s.clearRegisters).resBit = 0 := rfl
@[simp] theorem clearRegisters_fault : (s.clearRegisters).fault = none := rfl
@[simp] theorem clearRegisters_pending : (s.clearRegisters).pending = none := rfl
@[simp] theorem clearRegisters_mem : (s.clearRegisters).mem = s.mem := rfl
@[simp] theorem clearRegisters_mark : (s.clearRegisters).mark = s.mark := rfl
@[simp] theorem clearRegisters_raced : (s.clearRegisters).raced = s.raced := rfl
@[simp] theorem clearRegisters_draws : (s.clearRegisters).draws = s.draws := rfl
@[simp] theorem clearRegisters_response : (s.clearRegisters).response = s.response := rfl
@[simp] theorem clearRegisters_hostProg : (s.clearRegisters).hostProg = s.hostProg := rfl
@[simp] theorem clearRegisters_hostPc : (s.clearRegisters).hostPc = s.hostPc := rfl
@[simp] theorem clearRegisters_hostVars : (s.clearRegisters).hostVars = s.hostVars := rfl
@[simp] theorem clearRegisters_hostReads : (s.clearRegisters).hostReads = s.hostReads := rfl
@[simp] theorem clearRegisters_hostFailed : (s.clearRegisters).hostFailed = s.hostFailed := rfl
@[simp] theorem clearRegisters_schedule : (s.clearRegisters).schedule = s.schedule := rfl

/-! ### busErrorResponse -/

@[simp] theorem busErrorResponse_cfg : (s.busErrorResponse).cfg = s.cfg := rfl
@[simp] theorem busErrorResponse_dstAddr : (s.busErrorResponse).dstAddr = s.dstAddr := rfl
@[simp] theorem busErrorResponse_srcAddr : (s.busErrorResponse).srcAddr = s.srcAddr := rfl
@[simp] theorem busErrorResponse_count : (s.busErrorResponse).count = s.count := rfl
@[simp] theorem busErrorResponse_resCount : (s.busErrorResponse).resCount = s.resCount := rfl
@[simp] theorem busErrorResponse_resSynd : (s.busErrorResponse).resSynd = s.resSynd := rfl
@[simp] theorem busErrorResponse_resBit : (s.busErrorResponse).resBit = s.resBit := rfl
@[simp] theorem busErrorResponse_fault : (s.busErrorResponse).fault = s.fault := rfl
@[simp] theorem busErrorResponse_pending : (s.busErrorResponse).pending = s.pending := rfl
@[simp] theorem busErrorResponse_mem : (s.busErrorResponse).mem = s.mem := rfl
@[simp] theorem busErrorResponse_mark : (s.busErrorResponse).mark = { s.mark with busError := true } := rfl
@[simp] theorem busErrorResponse_raced : (s.busErrorResponse).raced = s.raced := rfl
@[simp] theorem busErrorResponse_draws : (s.busErrorResponse).draws = s.draws := rfl
@[simp] theorem busErrorResponse_response : (s.busErrorResponse).response = some Response.busError := rfl
@[simp] theorem busErrorResponse_hostProg : (s.busErrorResponse).hostProg = s.hostProg := rfl
@[simp] theorem busErrorResponse_hostPc : (s.busErrorResponse).hostPc = s.hostPc := rfl
@[simp] theorem busErrorResponse_hostVars : (s.busErrorResponse).hostVars = s.hostVars := rfl
@[simp] theorem busErrorResponse_hostReads : (s.busErrorResponse).hostReads = s.hostReads := rfl
@[simp] theorem busErrorResponse_hostFailed : (s.busErrorResponse).hostFailed = s.hostFailed := rfl
@[simp] theorem busErrorResponse_schedule : (s.busErrorResponse).schedule = s.schedule := rfl

/-! ### race -/

@[simp] theorem race_cfg (a : Nat) : (State.race a s).cfg = s.cfg := rfl
@[simp] theorem race_dstAddr (a : Nat) : (State.race a s).dstAddr = s.dstAddr := rfl
@[simp] theorem race_srcAddr (a : Nat) : (State.race a s).srcAddr = s.srcAddr := rfl
@[simp] theorem race_count (a : Nat) : (State.race a s).count = s.count := rfl
@[simp] theorem race_resCount (a : Nat) : (State.race a s).resCount = s.resCount := rfl
@[simp] theorem race_resSynd (a : Nat) : (State.race a s).resSynd = s.resSynd := rfl
@[simp] theorem race_resBit (a : Nat) : (State.race a s).resBit = s.resBit := rfl
@[simp] theorem race_fault (a : Nat) : (State.race a s).fault = s.fault := rfl
@[simp] theorem race_pending (a : Nat) : (State.race a s).pending = s.pending := rfl
@[simp] theorem race_mem (a : Nat) : (State.race a s).mem = Memory.write s.mem a (Config.freeByte s.draws) := rfl
@[simp] theorem race_mark (a : Nat) : (State.race a s).mark = { s.mark with hostRace := true } := rfl
@[simp] theorem race_raced (a : Nat) : (State.race a s).raced = if a ∈ s.raced then s.raced else a :: s.raced := rfl
@[simp] theorem race_draws (a : Nat) : (State.race a s).draws = s.draws + 1 := rfl
@[simp] theorem race_response (a : Nat) : (State.race a s).response = s.response := rfl
@[simp] theorem race_hostProg (a : Nat) : (State.race a s).hostProg = s.hostProg := rfl
@[simp] theorem race_hostPc (a : Nat) : (State.race a s).hostPc = s.hostPc := rfl
@[simp] theorem race_hostVars (a : Nat) : (State.race a s).hostVars = s.hostVars := rfl
@[simp] theorem race_hostReads (a : Nat) : (State.race a s).hostReads = s.hostReads := rfl
@[simp] theorem race_hostFailed (a : Nat) : (State.race a s).hostFailed = s.hostFailed := rfl
@[simp] theorem race_schedule (a : Nat) : (State.race a s).schedule = s.schedule := rfl

/-! ### setVar -/

@[simp] theorem setVar_cfg (x : Nat) (v : Int) : (State.setVar x v s).cfg = s.cfg := rfl
@[simp] theorem setVar_dstAddr (x : Nat) (v : Int) : (State.setVar x v s).dstAddr = s.dstAddr := rfl
@[simp] theorem setVar_srcAddr (x : Nat) (v : Int) : (State.setVar x v s).srcAddr = s.srcAddr := rfl
@[simp] theorem setVar_count (x : Nat) (v : Int) : (State.setVar x v s).count = s.count := rfl
@[simp] theorem setVar_resCount (x : Nat) (v : Int) : (State.setVar x v s).resCount = s.resCount := rfl
@[simp] theorem setVar_resSynd (x : Nat) (v : Int) : (State.setVar x v s).resSynd = s.resSynd := rfl
@[simp] theorem setVar_resBit (x : Nat) (v : Int) : (State.setVar x v s).resBit = s.resBit := rfl
@[simp] theorem setVar_fault (x : Nat) (v : Int) : (State.setVar x v s).fault = s.fault := rfl
@[simp] theorem setVar_pending (x : Nat) (v : Int) : (State.setVar x v s).pending = s.pending := rfl
@[simp] theorem setVar_mem (x : Nat) (v : Int) : (State.setVar x v s).mem = s.mem := rfl
@[simp] theorem setVar_mark (x : Nat) (v : Int) : (State.setVar x v s).mark = s.mark := rfl
@[simp] theorem setVar_raced (x : Nat) (v : Int) : (State.setVar x v s).raced = s.raced := rfl
@[simp] theorem setVar_draws (x : Nat) (v : Int) : (State.setVar x v s).draws = s.draws := rfl
@[simp] theorem setVar_response (x : Nat) (v : Int) : (State.setVar x v s).response = s.response := rfl
@[simp] theorem setVar_hostProg (x : Nat) (v : Int) : (State.setVar x v s).hostProg = s.hostProg := rfl
@[simp] theorem setVar_hostPc (x : Nat) (v : Int) : (State.setVar x v s).hostPc = s.hostPc := rfl
@[simp] theorem setVar_hostVars (x : Nat) (v : Int) : (State.setVar x v s).hostVars = (x, v) :: s.hostVars.filter (fun e => decide (e.1 ≠ x)) := rfl
@[simp] theorem setVar_hostReads (x : Nat) (v : Int) : (State.setVar x v s).hostReads = s.hostReads := rfl
@[simp] theorem setVar_hostFailed (x : Nat) (v : Int) : (State.setVar x v s).hostFailed = s.hostFailed := rfl
@[simp] theorem setVar_schedule (x : Nat) (v : Int) : (State.setVar x v s).schedule = s.schedule := rfl

/-! ### endLine -/

@[simp] theorem endLine_cfg : (s.endLine).cfg = s.cfg := rfl
@[simp] theorem endLine_dstAddr : (s.endLine).dstAddr = s.dstAddr := rfl
@[simp] theorem endLine_srcAddr : (s.endLine).srcAddr = s.srcAddr := rfl
@[simp] theorem endLine_count : (s.endLine).count = s.count := rfl
@[simp] theorem endLine_resCount : (s.endLine).resCount = s.resCount := rfl
@[simp] theorem endLine_resSynd : (s.endLine).resSynd = s.resSynd := rfl
@[simp] theorem endLine_resBit : (s.endLine).resBit = s.resBit := rfl
@[simp] theorem endLine_fault : (s.endLine).fault = s.fault := rfl
@[simp] theorem endLine_pending : (s.endLine).pending = s.pending := rfl
@[simp] theorem endLine_mem : (s.endLine).mem = s.mem := rfl
@[simp] theorem endLine_mark : (s.endLine).mark = s.mark := rfl
@[simp] theorem endLine_raced : (s.endLine).raced = s.raced := rfl
@[simp] theorem endLine_draws : (s.endLine).draws = s.draws := rfl
@[simp] theorem endLine_response : (s.endLine).response = s.response := rfl
@[simp] theorem endLine_hostProg : (s.endLine).hostProg = s.hostProg := rfl
@[simp] theorem endLine_hostPc : (s.endLine).hostPc = s.hostPc + 1 := rfl
@[simp] theorem endLine_hostVars : (s.endLine).hostVars = s.hostVars := rfl
@[simp] theorem endLine_hostReads : (s.endLine).hostReads = [] := rfl
@[simp] theorem endLine_hostFailed : (s.endLine).hostFailed = s.hostFailed := rfl
@[simp] theorem endLine_schedule : (s.endLine).schedule = s.schedule := rfl

/-! ### noteRead -/

@[simp] theorem noteRead_cfg (v : Int) : (s.noteRead v).cfg = s.cfg := rfl
@[simp] theorem noteRead_dstAddr (v : Int) : (s.noteRead v).dstAddr = s.dstAddr := rfl
@[simp] theorem noteRead_srcAddr (v : Int) : (s.noteRead v).srcAddr = s.srcAddr := rfl
@[simp] theorem noteRead_count (v : Int) : (s.noteRead v).count = s.count := rfl
@[simp] theorem noteRead_resCount (v : Int) : (s.noteRead v).resCount = s.resCount := rfl
@[simp] theorem noteRead_resSynd (v : Int) : (s.noteRead v).resSynd = s.resSynd := rfl
@[simp] theorem noteRead_resBit (v : Int) : (s.noteRead v).resBit = s.resBit := rfl
@[simp] theorem noteRead_fault (v : Int) : (s.noteRead v).fault = s.fault := rfl
@[simp] theorem noteRead_pending (v : Int) : (s.noteRead v).pending = s.pending := rfl
@[simp] theorem noteRead_mem (v : Int) : (s.noteRead v).mem = s.mem := rfl
@[simp] theorem noteRead_mark (v : Int) : (s.noteRead v).mark = s.mark := rfl
@[simp] theorem noteRead_raced (v : Int) : (s.noteRead v).raced = s.raced := rfl
@[simp] theorem noteRead_draws (v : Int) : (s.noteRead v).draws = s.draws := rfl
@[simp] theorem noteRead_response (v : Int) : (s.noteRead v).response = s.response := rfl
@[simp] theorem noteRead_hostProg (v : Int) : (s.noteRead v).hostProg = s.hostProg := rfl
@[simp] theorem noteRead_hostPc (v : Int) : (s.noteRead v).hostPc = s.hostPc := rfl
@[simp] theorem noteRead_hostVars (v : Int) : (s.noteRead v).hostVars = s.hostVars := rfl
@[simp] theorem noteRead_hostReads (v : Int) : (s.noteRead v).hostReads = s.hostReads ++ [v] := rfl
@[simp] theorem noteRead_hostFailed (v : Int) : (s.noteRead v).hostFailed = s.hostFailed := rfl
@[simp] theorem noteRead_schedule (v : Int) : (s.noteRead v).schedule = s.schedule := rfl

/-! ### settleRaces -/

@[simp] theorem settleRaces_cfg : (settleRaces s).cfg = s.cfg := rfl
@[simp] theorem settleRaces_dstAddr : (settleRaces s).dstAddr = s.dstAddr := rfl
@[simp] theorem settleRaces_srcAddr : (settleRaces s).srcAddr = s.srcAddr := rfl
@[simp] theorem settleRaces_count : (settleRaces s).count = s.count := rfl
@[simp] theorem settleRaces_resCount : (settleRaces s).resCount = s.resCount := rfl
@[simp] theorem settleRaces_resSynd : (settleRaces s).resSynd = s.resSynd := rfl
@[simp] theorem settleRaces_resBit : (settleRaces s).resBit = s.resBit := rfl
@[simp] theorem settleRaces_fault : (settleRaces s).fault = s.fault := rfl
@[simp] theorem settleRaces_pending : (settleRaces s).pending = s.pending := rfl
@[simp] theorem settleRaces_mem : (settleRaces s).mem = Memory.drawAll s.raced s.draws s.mem := rfl
@[simp] theorem settleRaces_mark : (settleRaces s).mark = s.mark := rfl
@[simp] theorem settleRaces_raced : (settleRaces s).raced = [] := rfl
@[simp] theorem settleRaces_draws : (settleRaces s).draws = s.draws + s.raced.length := rfl
@[simp] theorem settleRaces_response : (settleRaces s).response = s.response := rfl
@[simp] theorem settleRaces_hostProg : (settleRaces s).hostProg = s.hostProg := rfl
@[simp] theorem settleRaces_hostPc : (settleRaces s).hostPc = s.hostPc := rfl
@[simp] theorem settleRaces_hostVars : (settleRaces s).hostVars = s.hostVars := rfl
@[simp] theorem settleRaces_hostReads : (settleRaces s).hostReads = s.hostReads := rfl
@[simp] theorem settleRaces_hostFailed : (settleRaces s).hostFailed = s.hostFailed := rfl
@[simp] theorem settleRaces_schedule : (settleRaces s).schedule = s.schedule := rfl

/-! ### resetEvent -/

@[simp] theorem resetEvent_cfg : (resetEvent s).cfg = s.cfg := rfl
@[simp] theorem resetEvent_dstAddr : (resetEvent s).dstAddr = 0 := rfl
@[simp] theorem resetEvent_srcAddr : (resetEvent s).srcAddr = 0 := rfl
@[simp] theorem resetEvent_count : (resetEvent s).count = 0 := rfl
@[simp] theorem resetEvent_resCount : (resetEvent s).resCount = 0 := rfl
@[simp] theorem resetEvent_resSynd : (resetEvent s).resSynd = 0 := rfl
@[simp] theorem resetEvent_resBit : (resetEvent s).resBit = 0 := rfl
@[simp] theorem resetEvent_fault : (resetEvent s).fault = none := rfl
@[simp] theorem resetEvent_pending : (resetEvent s).pending = none := rfl
@[simp] theorem resetEvent_mem : (resetEvent s).mem = Memory.drawAll (abandonedBytes s) s.draws s.mem := rfl
@[simp] theorem resetEvent_mark : (resetEvent s).mark = s.mark := rfl
@[simp] theorem resetEvent_raced : (resetEvent s).raced = [] := rfl
@[simp] theorem resetEvent_draws : (resetEvent s).draws = s.draws + (abandonedBytes s).length := rfl
@[simp] theorem resetEvent_response : (resetEvent s).response = s.response := rfl
@[simp] theorem resetEvent_hostProg : (resetEvent s).hostProg = s.hostProg := rfl
@[simp] theorem resetEvent_hostPc : (resetEvent s).hostPc = s.hostPc := rfl
@[simp] theorem resetEvent_hostVars : (resetEvent s).hostVars = s.hostVars := rfl
@[simp] theorem resetEvent_hostReads : (resetEvent s).hostReads = s.hostReads := rfl
@[simp] theorem resetEvent_hostFailed : (resetEvent s).hostFailed = s.hostFailed := rfl
@[simp] theorem resetEvent_schedule : (resetEvent s).schedule = s.schedule := rfl

/-! ### raiseFault: only the fault changes, and only from none (R176) -/

@[simp] theorem raiseFault_cfg (c : FaultCode) : (s.raiseFault c).cfg = s.cfg := by
  unfold State.raiseFault; split <;> rfl
@[simp] theorem raiseFault_dstAddr (c : FaultCode) : (s.raiseFault c).dstAddr = s.dstAddr := by
  unfold State.raiseFault; split <;> rfl
@[simp] theorem raiseFault_srcAddr (c : FaultCode) : (s.raiseFault c).srcAddr = s.srcAddr := by
  unfold State.raiseFault; split <;> rfl
@[simp] theorem raiseFault_count (c : FaultCode) : (s.raiseFault c).count = s.count := by
  unfold State.raiseFault; split <;> rfl
@[simp] theorem raiseFault_resCount (c : FaultCode) : (s.raiseFault c).resCount = s.resCount := by
  unfold State.raiseFault; split <;> rfl
@[simp] theorem raiseFault_resSynd (c : FaultCode) : (s.raiseFault c).resSynd = s.resSynd := by
  unfold State.raiseFault; split <;> rfl
@[simp] theorem raiseFault_resBit (c : FaultCode) : (s.raiseFault c).resBit = s.resBit := by
  unfold State.raiseFault; split <;> rfl
theorem raiseFault_fault (c : FaultCode) : (s.raiseFault c).fault = some (s.fault.getD c) := by
  unfold State.raiseFault; split <;> simp_all
theorem raiseFault_of_none (c : FaultCode) (h : s.fault = none) : s.raiseFault c = { s with fault := some c } := by
  unfold State.raiseFault; rw [h]
theorem raiseFault_of_some (c d : FaultCode) (h : s.fault = some d) : s.raiseFault c = s := by
  unfold State.raiseFault; rw [h]
@[simp] theorem raiseFault_pending (c : FaultCode) : (s.raiseFault c).pending = s.pending := by
  unfold State.raiseFault; split <;> rfl
@[simp] theorem raiseFault_mem (c : FaultCode) : (s.raiseFault c).mem = s.mem := by
  unfold State.raiseFault; split <;> rfl
@[simp] theorem raiseFault_mark (c : FaultCode) : (s.raiseFault c).mark = s.mark := by
  unfold State.raiseFault; split <;> rfl
@[simp] theorem raiseFault_raced (c : FaultCode) : (s.raiseFault c).raced = s.raced := by
  unfold State.raiseFault; split <;> rfl
@[simp] theorem raiseFault_draws (c : FaultCode) : (s.raiseFault c).draws = s.draws := by
  unfold State.raiseFault; split <;> rfl
@[simp] theorem raiseFault_response (c : FaultCode) : (s.raiseFault c).response = s.response := by
  unfold State.raiseFault; split <;> rfl
@[simp] theorem raiseFault_hostProg (c : FaultCode) : (s.raiseFault c).hostProg = s.hostProg := by
  unfold State.raiseFault; split <;> rfl
@[simp] theorem raiseFault_hostPc (c : FaultCode) : (s.raiseFault c).hostPc = s.hostPc := by
  unfold State.raiseFault; split <;> rfl
@[simp] theorem raiseFault_hostVars (c : FaultCode) : (s.raiseFault c).hostVars = s.hostVars := by
  unfold State.raiseFault; split <;> rfl
@[simp] theorem raiseFault_hostReads (c : FaultCode) : (s.raiseFault c).hostReads = s.hostReads := by
  unfold State.raiseFault; split <;> rfl
@[simp] theorem raiseFault_hostFailed (c : FaultCode) : (s.raiseFault c).hostFailed = s.hostFailed := by
  unfold State.raiseFault; split <;> rfl
@[simp] theorem raiseFault_schedule (c : FaultCode) : (s.raiseFault c).schedule = s.schedule := by
  unfold State.raiseFault; split <;> rfl

end Sys2Proof.Machine
end

