-- ==== Sys2Proof/Laws/Commands.lean ====
section
/-! SUPPORT. What `exec` can do, said once: the two events of a command, the rule of each command as a
function, the fields a rule can change, and what the runs of ENCODE, DECODE and CORRECT leave. -/

namespace Sys2Proof.Machine

/-- The rule a command's completion performs. -/
def ruleOf : Instr → Pending → State → State
  | .encode => encodeBody
  | .decode => decodeBody
  | .correct => correctBody
  | .getBit => getBitBody
  | .setBit v => setBitBody v
  | .flipBit => flipBitBody

theorem exec_eq_runCommand (i : Instr) (s : State) : exec i s = runCommand i (ruleOf i) s := by
  cases i <;> rfl

/-- With no command pending, `exec` is the issue event. -/
theorem exec_of_idle {i : Instr} {s : State} (h : s.pending = none) : exec i s = .next (issue i s) := by
  rw [exec_eq_runCommand, runCommand, h]

/-- With the command itself pending and its footprint in memory, `exec` is its completion. -/
theorem exec_of_pending {s : State} {p : Pending} (h : s.pending = some p) (hm : p.leavesMemory s.cfg = false) :
    exec p.cmd s = .next (ruleOf p.cmd p s).retire := by
  rw [exec_eq_runCommand, runCommand, h]
  simp [complete, hm]

/-- The same, the command named apart. -/
theorem exec_of_pending' {i : Instr} {s : State} {p : Pending} (h : s.pending = some p) (hi : p.cmd = i)
    (hm : p.leavesMemory s.cfg = false) : exec i s = .next (ruleOf i p s).retire := hi ▸ exec_of_pending h hm

/-- Everything a next state of `exec` can be. -/
theorem exec_cases {i : Instr} {s t : State} (h : exec i s = .next t) :
    (s.pending = none ∧ t = issue i s) ∨
      (∃ p, s.pending = some p ∧ p.cmd = i ∧ p.leavesMemory s.cfg = false ∧ t = (ruleOf i p s).retire) ∨
      (∃ p, s.pending = some p ∧ p.cmd ≠ i ∧ t = s.raiseFault .cmdOverrun) := by
  rw [exec_eq_runCommand, runCommand] at h
  split at h
  · rename_i hp
    exact .inl ⟨hp, by simpa using h.symm⟩
  · rename_i p hp
    split at h
    · rename_i hi
      unfold complete at h
      split at h
      · cases h
      · rename_i hm
        exact .inr (.inl ⟨p, hp, hi, by simpa using hm, by simpa using h.symm⟩)
    · rename_i hi
      exact .inr (.inr ⟨p, hp, hi, by simpa using h.symm⟩)

/-- Everything an issue can be: ignored, refused with a fault, or latched (R178). -/
theorem issue_cases (i : Instr) (s : State) :
    (s.fault ≠ none ∧ issue i s = s) ∨
      (s.fault = none ∧ ∃ c, (s.operands i).issueFault s.cfg = some c ∧ issue i s = { s with fault := some c }) ∨
      (s.fault = none ∧ (s.operands i).issueFault s.cfg = none ∧ issue i s = s.latch (s.operands i)) := by
  unfold issue
  split
  · rename_i c hc; exact .inl ⟨by simp [hc], rfl⟩
  · rename_i hc
    split
    · rename_i c hf; exact .inr (.inl ⟨hc, c, hf, raiseFault_of_none _ _ hc⟩)
    · rename_i hf; exact .inr (.inr ⟨hc, hf, rfl⟩)

/-- A rule changes memory and result registers only. -/
theorem ruleOf_frame (i : Instr) (p : Pending) (s : State) :
    ∃ m rc rs rb, ruleOf i p s = { s with mem := m, resCount := rc, resSynd := rs, resBit := rb } := by
  cases i <;> exact ⟨_, _, _, _, rfl⟩

/-! ### The runs of the codeword commands -/

theorem encodeRun_bits (m : Memory) (src dst n : Nat) : (encodeRun m src dst n).bits = lenc n := by
  have := encodeWalk_bits src dst n (lenc n) 0 0 m (by omega)
  rwa [nData_zero] at this

theorem encodeData_synd (m : Memory) (src dst n : Nat) (hap : Apart src n dst (lenc n)) :
    (encodeData m src dst n).synd = xorPositions (fun q => dataPos (q + 1) && bitRead m src (nData q)) (lenc n) :=
  (encodeWalk_spec src dst n (bitRead m src) hap (lenc n) 0 m (by omega) (fun _ _ _ => rfl)).1

/-- Data bits sit at the data positions, in order (R115). -/
theorem encodeRun_data (m : Memory) (src dst n : Nat) (hap : Apart src n dst (lenc n)) {q : Nat} (hq : q < lenc n)
    (hd : dataPos (q + 1) = true) : bitRead (encodeRun m src dst n).mem dst q = bitRead m src (nData q) := by
  have h := (encodeWalk_spec src dst n (bitRead m src) hap (lenc n) 0 m (by omega) (fun _ _ _ => rfl)).2 q
    (Nat.zero_le _) hq hd
  exact (parityPass_data _ _ _ _ _ _ hd).trans h

/-- The parity position `2^k` holds bit `k` of the accumulator (R117). -/
theorem encodeRun_parity (m : Memory) (src dst n : Nat) {k : Nat} (hk : 2 ^ k ≤ lenc n) :
    bitRead (encodeRun m src dst n).mem dst (2 ^ k - 1) = (encodeData m src dst n).synd.testBit k := by
  have hb : (encodeData m src dst n).bits = lenc n := encodeRun_bits m src dst n
  have hk' : k < nPar (lenc n) := (lt_nPar_iff _ _).2 hk
  unfold encodeRun
  simp only [hb]
  exact parityPass_parity _ _ _ _ _ _ _ (Nat.zero_le _) (by omega) (by omega)

/-- ENCODE changes no bit but the bits `[0, Lenc n)` of its output (R118). -/
theorem encodeRun_bit_off (m : Memory) (src dst n a k : Nat) (hk : k < 8) (h : OffBits dst 0 (lenc n) a k) :
    (Memory.read (encodeRun m src dst n).mem a).getLsbD k = (Memory.read m a).getLsbD k := by
  have hb : (encodeData m src dst n).bits = lenc n := encodeRun_bits m src dst n
  unfold encodeRun
  simp only [hb]
  rw [parityPass_bit_off _ _ _ _ _ _ _ _ hk (fun q _ hq => h _ (Nat.zero_le _) hq)]
  exact encodeWalk_bit_off src dst n (lenc n) 0 0 0 m a k hk (by rwa [Nat.zero_add])

theorem decodeRun_bits (m : Memory) (src dst c : Nat) : (decodeRun m src dst c).bits = nData c := by
  have := decodeWalk_bits src dst c 0 0 m
  rwa [nData_zero, Nat.zero_add] at this

/-- The syndrome of DECODE (R132). -/
theorem decodeRun_synd (m : Memory) (src dst c : Nat) (hap : Apart src c dst (nData c)) :
    (decodeRun m src dst c).synd = xorPositions (bitRead m src) c :=
  (decodeWalk_spec src dst c (bitRead m src) hap c 0 m (by omega) (fun _ _ _ => rfl)).1

/-- The data bits of DECODE (R133). -/
theorem decodeRun_data (m : Memory) (src dst c : Nat) (hap : Apart src c dst (nData c)) {x : Nat} (hx : x < c)
    (hd : dataPos (x + 1) = true) : bitRead (decodeRun m src dst c).mem dst (nData x) = bitRead m src x :=
  (decodeWalk_spec src dst c (bitRead m src) hap c 0 m (by omega) (fun _ _ _ => rfl)).2 x (Nat.zero_le _) hx hd

/-- DECODE changes no bit but the bits `[0, nData c)` of its output (R136). -/
theorem decodeRun_bit_off (m : Memory) (src dst c a k : Nat) (hk : k < 8) (h : OffBits dst 0 (nData c) a k) :
    (Memory.read (decodeRun m src dst c).mem a).getLsbD k = (Memory.read m a).getLsbD k :=
  decodeWalk_bit_off src dst c 0 0 m a k hk (by rwa [nData_zero, Nat.zero_add])

/-- The accumulator of DECODE fits in the width of the count. -/
theorem decodeRun_synd_lt (m : Memory) (src dst c w : Nat) (h : c < 2 ^ w) : (decodeRun m src dst c).synd < 2 ^ w :=
  decodeWalk_synd_lt src dst c 0 0 0 w m (Nat.two_pow_pos w) (by omega)

/-- For a syndrome the flip test accepts, `clog2` is the number of parity positions up to it (R155). -/
theorem clog2_eq_nPar {s : Nat} (h0 : s ≠ 0) (h : isPow2 s = false) : clog2 s = nPar s := by
  have h1 : s ≠ 1 := by rintro rfl; simp [isPow2] at h
  have lo := Nat.log2_self_le h0
  have hi := Nat.lt_log2_self (n := s)
  have ne : 2 ^ Nat.log2 s ≠ s := by
    intro e
    rw [← e, isPow2_two_pow] at h
    simp at h
  have e : Nat.log2 (s - 1) = Nat.log2 s := (Nat.log2_eq_iff (by omega)).2 ⟨by omega, by omega⟩
  unfold clog2 nPar
  rw [if_neg (by omega), if_neg h0, e]

/-- The bit CORRECT flips is the output slot of position `S`, inside the output (R156). -/
theorem correctable_slot {s c : Nat} (h : correctable s c = true) :
    dataPos s = true ∧ s - clog2 s - 1 = nData (s - 1) ∧ nData (s - 1) < nData c := by
  simp only [correctable, Bool.and_eq_true, Bool.not_eq_true', decide_eq_true_eq] at h
  obtain ⟨⟨h0, hp⟩, hc⟩ := h
  have hd : dataPos s = true := by simp [dataPos, hp]; omega
  obtain ⟨r, rfl⟩ : ∃ r, s = r + 1 := ⟨s - 1, by omega⟩
  have e := nData_succ_of_data hd
  refine ⟨hd, ?_, nData_lt_of_dataPos (by simpa using hc) (by simpa using hd)⟩
  rw [clog2_eq_nPar h0 hp]
  unfold nData at e
  simp only [Nat.add_sub_cancel]
  unfold nData
  omega

theorem correctRun_bits (m : Memory) (src dst c : Nat) : (correctRun m src dst c).bits = nData c :=
  decodeRun_bits m src dst c

theorem correctRun_synd (m : Memory) (src dst c : Nat) : (correctRun m src dst c).synd = (decodeRun m src dst c).synd :=
  rfl

/-- The output bits of CORRECT: those of DECODE, one of them flipped if the test accepts the syndrome (R152). -/
theorem correctRun_bit (m : Memory) (src dst c j : Nat) :
    bitRead (correctRun m src dst c).mem dst j =
      (bitRead (decodeRun m src dst c).mem dst j ^^
        (correctable (decodeRun m src dst c).synd c &&
          decide (j = (decodeRun m src dst c).synd - clog2 (decodeRun m src dst c).synd - 1))) := by
  unfold correctRun correctFlip
  simp only
  split
  · rename_i h
    rw [bitRead_bitFlip, h, Bool.true_and]
    split
    · rename_i e; simp [e]
    · rename_i e; simp [e]
  · rename_i h; simp [h]

/-- CORRECT changes no bit but those of DECODE (R160). -/
theorem correctRun_bit_off (m : Memory) (src dst c a k : Nat) (hk : k < 8) (h : OffBits dst 0 (nData c) a k) :
    (Memory.read (correctRun m src dst c).mem a).getLsbD k = (Memory.read m a).getLsbD k := by
  rw [← decodeRun_bit_off m src dst c a k hk h]
  unfold correctRun correctFlip
  simp only
  split
  · rename_i hc
    obtain ⟨-, e, hlt⟩ := correctable_slot hc
    rw [bit_bitFlip _ _ _ _ _ hk, if_neg (h _ (Nat.zero_le _) (e ▸ hlt))]
  · rfl

/-! ### Canonical form -/

theorem wf_ruleOf (i : Instr) (p : Pending) (s : State) (h : Memory.wf s.mem = true) :
    Memory.wf (ruleOf i p s).mem = true := by
  cases i with
  | encode => exact wf_parityPass _ _ _ _ _ _ (wf_encodeWalk _ _ _ _ _ _ _ _ h)
  | decode => exact wf_decodeWalk _ _ _ _ _ _ _ h
  | correct =>
    show Memory.wf (correctFlip _ _ _) = true
    unfold correctFlip
    split
    · exact wf_bitFlip _ _ _ (wf_decodeWalk _ _ _ _ _ _ _ h)
    · exact wf_decodeWalk _ _ _ _ _ _ _ h
  | getBit => exact h
  | setBit v => exact wf_bitWrite _ _ _ _ h
  | flipBit => exact wf_bitFlip _ _ _ h

/-- A completion lists only addresses of buffer memory. -/
theorem inside_ruleOf (p : Pending) (s : State) (hm : p.leavesMemory s.cfg = false)
    (h : Memory.inside s.cfg.memBytes s.mem = true) : Memory.inside s.cfg.memBytes (ruleOf p.cmd p s).mem = true := by
  have out : ∀ y, y < outBits p.cmd p.cnt.toNat → p.dst.toNat + y / 8 < s.cfg.memBytes :=
    fun y hy => Pending.out_lt hm (p.outBits_has hy)
  have bit := fun hb => Pending.out_lt hm (p.bit_has hb)
  cases hc : p.cmd with
  | encode =>
    simp only [hc, outBits] at out
    refine inside_parityPass _ _ _ _ _ _ _ (fun y hy => out y ?_)
      (inside_encodeWalk _ _ _ _ _ _ _ _ _ (fun y hy => out y (by omega)) h)
    rwa [show (encodeData s.mem p.src.toNat p.dst.toNat p.cnt.toNat).bits = lenc p.cnt.toNat from
      encodeRun_bits _ _ _ _] at hy
  | decode =>
    simp only [hc, outBits] at out
    exact inside_decodeWalk _ _ _ _ 0 _ _ (fun y hy => out y (by simpa using hy)) h
  | correct =>
    simp only [hc, outBits] at out
    have hd : Memory.inside s.cfg.memBytes (decodeRun s.mem p.src.toNat p.dst.toNat p.cnt.toNat).mem = true :=
      inside_decodeWalk _ _ _ _ 0 _ _ (fun y hy => out y (by simpa using hy)) h
    show Memory.inside _ (correctFlip _ _ _) = true
    unfold correctFlip
    split
    · rename_i hx
      obtain ⟨-, e, hlt⟩ := correctable_slot hx
      exact inside_bitFlip _ _ _ _ (out _ (e ▸ hlt)) hd
    · exact hd
  | getBit => exact h
  | setBit v => exact inside_bitWrite _ _ _ _ _ (bit (.inr (.inl ⟨v, hc⟩))) h
  | flipBit => exact inside_bitFlip _ _ _ _ (bit (.inr (.inr hc))) h

/-- A completion that answers a next state is its rule, then `retire`. -/
theorem exec_completion {i : Instr} {s t : State} {p : Pending} (hp : s.pending = some p) (hi : p.cmd = i)
    (h : exec i s = .next t) : p.leavesMemory s.cfg = false ∧ t = (ruleOf i p s).retire := by
  obtain ⟨h1, -⟩ | ⟨q, h1, -, h3, h4⟩ | ⟨q, h1, h2, -⟩ := exec_cases h
  · rw [h1] at hp; cases hp
  · rw [hp] at h1; cases h1; exact ⟨h3, h4⟩
  · rw [hp] at h1; cases h1; exact absurd hi h2

end Sys2Proof.Machine
end

