-- ==== Sys2Proof/Laws/PerInstr.lean ====
section
/-! SUPPORT. Statements about every command as syntax, one lemma per constructor. -/

namespace Sys2Proof.Laws

/-- The word of a command keeps the format CMD32 (R70): RSV is 0, OP is one of 1 to 6, and VAL is 0 unless OP is 0x5. -/
def WordFormat.Statement (i : Instr) : Prop :=
  rsvField (encode i) = 0 ∧ 1 ≤ (opField (encode i)).toNat ∧ (opField (encode i)).toNat ≤ 6 ∧
    (opField (encode i) ≠ 0x5 → valField (encode i) = false)

theorem WordFormat.encode : WordFormat.Statement .encode := by unfold WordFormat.Statement; decide
theorem WordFormat.decode : WordFormat.Statement .decode := by unfold WordFormat.Statement; decide
theorem WordFormat.correct : WordFormat.Statement .correct := by unfold WordFormat.Statement; decide
theorem WordFormat.getBit : WordFormat.Statement .getBit := by unfold WordFormat.Statement; decide
theorem WordFormat.setBit (val : Bool) : WordFormat.Statement (.setBit val) := by unfold WordFormat.Statement; cases val <;> decide
theorem WordFormat.flipBit : WordFormat.Statement .flipBit := by unfold WordFormat.Statement; decide

end Sys2Proof.Laws
end

