-- ==== Sys2Proof/Laws/Step.lean ====
section
/-! SUPPORT. What a step can do, said once: the CMD write, the host's accesses, a step of a host line, and
the three agents. -/

namespace Sys2Proof.Machine

/-- Everything a CMD write can be (R178). -/
theorem cmdWrite_cases {w : Word} {s t : State} (h : cmdWrite w s = .next t) :
    (s.fault ≠ none ∧ t = s) ∨
      (s.fault = none ∧ s.pending ≠ none ∧ t = { s with fault := some FaultCode.cmdOverrun }) ∨
      (s.fault = none ∧ s.pending = none ∧ (∃ r, decode w = .error r) ∧
        t = { s with fault := some FaultCode.illegalCmd }) ∨
      (s.fault = none ∧ s.pending = none ∧ ∃ i, decode w = .ok i ∧ t = issue i s) := by
  unfold cmdWrite at h
  split at h
  · rename_i c hc; exact .inl ⟨by simp [hc], by simpa using h.symm⟩
  · rename_i hc
    split at h
    · rename_i p hp
      rw [raiseFault_of_none _ _ hc] at h
      exact .inr (.inl ⟨hc, by simp [hp], by simpa using h.symm⟩)
    · rename_i hp
      split at h
      · rename_i r hr
        rw [raiseFault_of_none _ _ hc] at h
        exact .inr (.inr (.inl ⟨hc, hp, ⟨r, hr⟩, by simpa using h.symm⟩))
      · rename_i i hi
        rw [exec_of_idle hp] at h
        exact .inr (.inr (.inr ⟨hc, hp, i, hi, by simpa using h.symm⟩))

/-- A CMD write never stops the machine. -/
theorem cmdWrite_next (w : Word) (s : State) : ∃ t, cmdWrite w s = .next t := by
  unfold cmdWrite
  split
  · exact ⟨_, rfl⟩
  · split
    · exact ⟨_, rfl⟩
    · rename_i hp
      split
      · exact ⟨_, rfl⟩
      · exact ⟨_, exec_of_idle hp⟩

theorem andThen_next {σ τ : Type} {o : Host.Outcome σ Fault Refusal} {f : σ → Host.Outcome τ Fault Refusal} {t : τ}
    (h : andThen o f = .next t) : ∃ s, o = .next s ∧ f s = .next t := by
  unfold andThen at h
  split at h
  · exact ⟨_, rfl, h⟩
  · cases h
  · cases h

/-- What one access of the host can do to a state. -/
inductive Access (s : State) : State → Prop where
  /-- No access, or one that only returns a value. -/
  | quiet (u : State) (h : u = s ∨ ∃ r, u = s.respond r) : Access s u
  /-- A register write. -/
  | write (r : Reg) (v : Word) (u : State) (h : writeReg r v (s.respond .wrote) = .next u) : Access s u
  /-- A result register read while BUSY = 1. -/
  | drawn (r : Response) : Access s ((s.drew 1).respond r)
  /-- A bus error. -/
  | busError : Access s s.busErrorResponse
  /-- A HostRace. -/
  | race (a k : Nat) (r : Response) (ha : a < s.cfg.memBytes) (hf : s.inFootprint a = true) :
      Access s (((s.race a).drew k).respond r)
  /-- A byte write outside the pending footprint. -/
  | store (a : Nat) (b : Byte) (ha : a < s.cfg.memBytes) (hf : s.inFootprint a = false) :
      Access s ((s.setMem (Memory.write s.mem a b)).respond .wrote)

theorem readReg_access (r : Reg) (s : State) (x : Response) : Access s ((readReg r s).1.respond x) := by
  have q : Access s (s.respond x) := .quiet _ (.inr ⟨x, rfl⟩)
  have res : ∀ v, Access s ((readResult v s).1.respond x) := by
    intro v
    unfold readResult
    split
    · exact .drawn x
    · exact q
  cases r <;> first | exact q | exact res _

theorem readByte_access {a : Nat} {s : State} {v : State × Byte} (h : readByte a s = .next v) (x : Response) :
    Access s (v.1.respond x) := by
  unfold readByte at h
  split at h
  · cases h
  · rename_i ha
    split at h
    · rename_i hf
      simp only [Host.Outcome.next.injEq] at h
      subst h
      exact .race a 1 x (by omega) hf
    · simp only [Host.Outcome.next.injEq] at h
      subst h
      exact .quiet _ (.inr ⟨x, rfl⟩)

theorem hostRead_access {a : HostRead} {s : State} {v : State × Int} (h : hostRead a s = .next v) : Access s v.1 := by
  cases a with
  | reg r =>
    simp only [hostRead, Host.Outcome.next.injEq] at h
    subst h
    exact readReg_access _ _ _
  | byte b =>
    unfold hostRead at h
    simp only at h
    split at h
    · cases h
    · obtain ⟨u, hu, hv⟩ := andThen_next h
      simp only [Host.Outcome.next.injEq] at hv
      subst hv
      exact readByte_access hu _

theorem busWrite_access {addr width : Nat} {d : Word} {s u : State} (h : busWrite addr width d s = .next u) :
    Access s u := by
  unfold busWrite at h
  split at h
  · exact .write _ _ _ h
  · split at h
    · simp only [Host.Outcome.next.injEq] at h
      subst h
      exact .busError
    · cases h

theorem busRead_access {addr width : Nat} {s u : State} (h : busRead addr width s = .next u) : Access s u := by
  unfold busRead at h
  split at h
  · simp only [Host.Outcome.next.injEq] at h
    subst h
    exact readReg_access _ _ _
  · split at h
    · simp only [Host.Outcome.next.injEq] at h
      subst h
      exact .busError
    · cases h

/-- A register write never stops the machine. -/
theorem writeReg_next (r : Reg) (v : Word) (s : State) : ∃ t, writeReg r v s = .next t := by
  cases r with
  | cmd => exact cmdWrite_next v s
  | status | dstAddr | srcAddr | count | resCount | resSynd | resBit => exact ⟨_, rfl⟩

/-- A store at a byte of memory goes on, and at any other address stops. -/
theorem hostStoreByte_next {a : Nat} {s : State} (b : Byte) (h : a < s.cfg.memBytes) :
    ∃ t, hostStoreByte a b s = .next t := by
  unfold hostStoreByte
  rw [if_neg (by omega)]
  split <;> exact ⟨_, rfl⟩

theorem hostStoreByte_noSuchByte {a : Nat} {s : State} (b : Byte) (h : s.cfg.memBytes ≤ a) :
    hostStoreByte a b s = .fault .noSuchByte := if_pos h

/-- Two states that differ in the host agent's own fields only, and in free draws that the host's line made. -/
def SameButHost (u t : State) : Prop :=
  ∃ pc vars reads failed d, t = { u with
    hostPc := pc, hostVars := vars, hostReads := reads, hostFailed := failed, draws := u.draws + d }

theorem SameButHost.refl (u : State) : SameButHost u u := ⟨_, _, _, _, 0, rfl⟩

theorem SameButHost.trans {u t v : State} (h : SameButHost u t) (h' : SameButHost t v) : SameButHost u v := by
  obtain ⟨_, _, _, _, d, rfl⟩ := h
  obtain ⟨_, _, _, _, d', rfl⟩ := h'
  exact ⟨_, _, _, _, d + d', by rw [← Nat.add_assoc]⟩

theorem endLine_same (s : State) : SameButHost s s.endLine := ⟨_, _, _, _, 0, rfl⟩

theorem noteRead_same (v : Int) (s : State) : SameButHost s (s.noteRead v) := ⟨_, _, _, _, 0, rfl⟩

theorem hostBranch_same (b : Bool) (g : Target) (k : Nat) (u : State) : SameButHost u (hostBranch b g k u) := by
  unfold hostBranch
  split
  · split
    · exact ⟨_, _, _, _, 0, rfl⟩
    · exact ⟨_, _, _, _, 1, rfl⟩
  · exact .refl _

theorem hostImm32_same (v : Int) (s : State) : SameButHost s (hostImm32 v s).1 := by
  unfold hostImm32
  split
  · exact .refl _
  · exact ⟨_, _, _, _, 1, rfl⟩

theorem hostImm8_same (v : Int) (s : State) : SameButHost s (hostImm8 v s).1 := by
  unfold hostImm8
  split
  · exact .refl _
  · exact ⟨_, _, _, _, 1, rfl⟩

/-- An imm32 is written as it stands. -/
theorem hostImm32_of_lt {v : Int} (h : 0 ≤ v) (h' : v < 2 ^ 32) (s : State) :
    hostImm32 v s = (s, BitVec.ofNat 32 v.toNat) := if_pos ⟨h, h'⟩

/-- An imm8 is written as it stands. -/
theorem hostImm8_of_lt {v : Int} (h : 0 ≤ v) (h' : v < 2 ^ 8) (s : State) :
    hostImm8 v s = (s, BitVec.ofNat 8 v.toNat) := if_pos ⟨h, h'⟩

/-- One access of the host, with changes of the host's own fields before and after it. -/
def HostAccess (s t : State) : Prop := ∃ v u, SameButHost s v ∧ Access v u ∧ SameButHost u t

theorem HostAccess.of_access {s t : State} (h : Access s t) : HostAccess s t := ⟨s, t, .refl _, h, .refl _⟩

theorem HostAccess.of_same {s t : State} (h : SameButHost s t) : HostAccess s t :=
  ⟨s, s, .refl _, .quiet _ (.inl rfl), h⟩

theorem HostAccess.after {s v t : State} (h : SameButHost s v) (h' : HostAccess v t) : HostAccess s t := by
  obtain ⟨w, u, h1, h2, h3⟩ := h'
  exact ⟨w, u, h.trans h1, h2, h3⟩

theorem hostStoreByte_access {a : Nat} {b : Byte} {s t : State} (h : hostStoreByte a b s = .next t) : Access s t := by
  unfold hostStoreByte at h
  split at h
  · cases h
  · rename_i hlt
    split at h
    · rename_i hf
      simp only [Host.Outcome.next.injEq] at h
      subst h
      exact .race _ 0 .wrote (by omega) hf
    · rename_i hf
      simp only [Host.Outcome.next.injEq] at h
      subst h
      exact .store _ _ (by omega) (by simpa using hf)

theorem hostStore_access {a n : Int} {s t : State} (h : hostStore a n s = .next t) : HostAccess s t := by
  unfold hostStore at h
  split at h
  · cases h
  · exact (HostAccess.of_access (hostStoreByte_access h)).after (hostImm8_same n s)

theorem hostWriteReg_access {r : Reg} {n : Int} {s t : State} (h : hostWriteReg r n s = .next t) : HostAccess s t :=
  (HostAccess.of_access (busWrite_access h)).after (hostImm32_same n s)

@[simp] theorem Eval.bind_done {σ τ : Type} (v : σ) (rest : List Int) (f : σ → List Int → Eval τ) :
    (Eval.done v rest).bind f = f v rest := rfl

@[simp] theorem Eval.bind_needs {σ τ : Type} (a : HostRead) (f : σ → List Int → Eval τ) :
    (Eval.needs a).bind f = .needs a := rfl

@[simp] theorem takeRead_nil (a : HostRead) : takeRead a [] = .needs a := rfl

@[simp] theorem takeRead_cons (a : HostRead) (v : Int) (rest : List Int) : takeRead a (v :: rest) = .done v rest := rfl

/-- A line whose values are there takes effect. -/
theorem hostLine_of_done {op : HostOp} {s : State} {v : Int × Int} {rest : List Int}
    (h : op.values s.hostVars s.hostReads = .done v rest) :
    hostLine op s = hostFinish op v.1 v.2 s.hostPc s.endLine := by
  unfold hostLine
  rw [h]

/-- A line that needs a value reads it, and takes effect with it if it then needs no further access. -/
theorem hostLine_of_needs {op : HostOp} {s : State} {a : HostRead}
    (h : op.values s.hostVars s.hostReads = .needs a) :
    hostLine op s = andThen (hostRead a s) (fun r =>
      if op.accesses then .next (r.1.noteRead r.2) else hostAfterRead op (r.1.noteRead r.2)) := by
  unfold hostLine
  rw [h]

/-- A line that makes no access of its own ends in a change of the host's own fields. -/
theorem hostFinish_same {op : HostOp} {m n : Int} {k : Nat} {s t : State} (ho : op.accesses = false)
    (h : hostFinish op m n k s = .next t) : SameButHost s t := by
  cases op with
  | wr | sb | busWrite | busRead => cases ho
  | blt | bne =>
    simp only [hostFinish, Host.Outcome.next.injEq] at h
    subst h
    exact hostBranch_same _ _ _ _
  | rd | lb | mov | add =>
    simp only [hostFinish, Host.Outcome.next.injEq] at h
    subst h
    exact ⟨_, _, _, _, 0, rfl⟩
  | assert a c b =>
    simp only [hostFinish, Host.Outcome.next.injEq] at h
    subst h
    split
    · exact .refl _
    · exact ⟨_, _, _, _, 0, rfl⟩

/-- The end of a line is at most one access. -/
theorem hostFinish_access {op : HostOp} {m n : Int} {k : Nat} {s t : State} (h : hostFinish op m n k s = .next t) :
    HostAccess s t := by
  cases ho : op.accesses with
  | false => exact .of_same (hostFinish_same ho h)
  | true =>
    cases op with
    | wr => exact hostWriteReg_access h
    | sb => exact hostStore_access h
    | busWrite => exact .of_access (busWrite_access h)
    | busRead => exact .of_access (busRead_access h)
    | rd | lb | mov | add | blt | bne | assert => cases ho

theorem hostAfterRead_same {op : HostOp} {s t : State} (ho : op.accesses = false) (h : hostAfterRead op s = .next t) :
    SameButHost s t := by
  unfold hostAfterRead at h
  split at h
  · exact (endLine_same s).trans (hostFinish_same ho h)
  · simp only [Host.Outcome.next.injEq] at h
    subst h
    exact .refl _

/-- A step of a line is one access at most, and changes of the host's own fields. -/
theorem hostLine_cases {op : HostOp} {s t : State} (h : hostLine op s = .next t) : HostAccess s t := by
  unfold hostLine at h
  split at h
  · exact (hostFinish_access h).after (endLine_same s)
  · obtain ⟨r, hr, ht⟩ := andThen_next h
    refine ⟨s, r.1, .refl _, hostRead_access hr, ?_⟩
    split at ht
    · simp only [Host.Outcome.next.injEq] at ht
      subst ht
      exact noteRead_same _ _
    · rename_i ho
      exact (noteRead_same r.2 r.1).trans (hostAfterRead_same (by simpa using ho) ht)

/-- The host's step is one access at most, and changes of the host's own fields. -/
theorem hostStep_cases {s t : State} (h : hostStep s = .next t) : HostAccess s t := by
  unfold hostStep at h
  split at h
  · simp only [Host.Outcome.next.injEq] at h
    subst h
    exact .of_same (.refl _)
  · split at h
    · simp only [Host.Outcome.next.injEq] at h
      subst h
      exact .of_same (.refl _)
    · exact hostLine_cases h

/-- The block's step: nothing, or the completion of its command and the settling of races. -/
theorem blockStep_cases {s t : State} (h : blockStep s = .next t) :
    (s.pending = none ∧ t = s) ∨
      ∃ p, s.pending = some p ∧ p.leavesMemory s.cfg = false ∧ t = settleRaces (ruleOf p.cmd p s).retire := by
  unfold blockStep at h
  split at h
  · rename_i hp; exact .inl ⟨hp, by simpa using h.symm⟩
  · rename_i p hp
    obtain ⟨u, hu, ht⟩ := andThen_next h
    refine .inr ⟨p, hp, ?_⟩
    obtain ⟨h1, -⟩ | ⟨q, h1, h2, h3, h4⟩ | ⟨q, h1, h2, h3⟩ := exec_cases hu
    · rw [h1] at hp; cases hp
    · rw [h1] at hp; cases hp
      exact ⟨h3, by rw [← h4]; simpa using ht.symm⟩
    · rw [h1] at hp; cases hp
      exact absurd rfl h2

/-- A step is the step of the agent that moves, with its turn taken off the schedule. -/
theorem step_eq (s : State) : step s = agentStep s.mover { s with schedule := s.schedule.tail } := by
  cases s
  rename_i sched
  cases sched <;> rfl

/-- Settling no races changes nothing. -/
theorem settleRaces_of_nil {s : State} (h : s.raced = []) : settleRaces s = s := by
  cases s
  simp only at h
  subst h
  rfl

/-- Every register is reached by an aligned word access at its offset (R186). -/
theorem accessedReg_offset (c : Config) (r : Reg) : accessedReg c (c.regBase + r.offset) 4 = some r := by
  unfold accessedReg
  cases r <;> simp [Reg.offset, Reg.atOffset]

/-- What an access leaves: the configuration, the schedule, the result registers, a recorded fault, a pending
command; the mark only grows. -/
theorem Access.frame {s u : State} (h : Access s u) :
    u.cfg = s.cfg ∧ u.schedule = s.schedule ∧ u.resCount = s.resCount ∧ u.resSynd = s.resSynd ∧ u.resBit = s.resBit ∧
      (s.fault ≠ none → u.fault = s.fault) ∧ (s.pending ≠ none → u.pending = s.pending) ∧
      (s.mark.hostRace = true → u.mark.hostRace = true) ∧ (s.mark.busError = true → u.mark.busError = true) := by
  cases h with
  | quiet _ h => obtain rfl | ⟨r, rfl⟩ := h <;> simp
  | write r v u h =>
    cases r <;> simp only [writeReg] at h
    case cmd =>
      obtain ⟨-, h⟩ | ⟨hf, -, h⟩ | ⟨hf, -, -, h⟩ | ⟨hf, hp, i, -, h⟩ := cmdWrite_cases h
      · subst h; simp
      · subst h; simp only [respond_fault] at hf; simp [hf]
      · subst h; simp only [respond_fault] at hf; simp [hf]
      · simp only [respond_fault, respond_pending] at hf hp
        obtain ⟨-, e⟩ | ⟨-, c, -, e⟩ | ⟨-, -, e⟩ := issue_cases i (s.respond .wrote) <;>
          (rw [e] at h; subst h; simp [hf, hp])
    all_goals (simp only [Host.Outcome.next.injEq] at h; subst h; simp)
  | drawn r => simp
  | busError => simp
  | race => simp
  | store => simp

end Sys2Proof.Machine
end

