-- ==== Sys2Proof/Tests/Slice0.lean ====
section
/-! SUPPORT. The model's own tests: ill-formed configurations are refused; words written out from 30_encoding.md
R70 and R72 decode to their commands; one-step tests whose expected results are those of 95_test_vectors.md (the
vector is named beside each); and, for every obligation with hypotheses, a state that meets them all together. -/

namespace Sys2Proof.Tests

open Sys2Proof.Machine Sys2Proof.Claims

/-! ### Well-formedness (00_scope.md R8) -/

theorem test_exampleCfg_wellFormed : Config.exampleCfg.wellFormed = true := by decide

theorem test_addrW_bounds :
    ({ Config.exampleCfg with addrW := 0, memBytes := 1 } : Config).addrWOk = false ∧
      ({ Config.exampleCfg with addrW := 33 } : Config).addrWOk = false ∧
      ({ Config.exampleCfg with addrW := 33 } : Config).wellFormed = false := by decide

theorem test_memBytes_bounds :
    ({ Config.exampleCfg with memBytes := 0 } : Config).memBytesOk = false ∧
      ({ Config.exampleCfg with memBytes := 65537 } : Config).memBytesOk = false ∧
      ({ Config.exampleCfg with memBytes := 65537 } : Config).wellFormed = false := by decide

theorem test_cntW_bounds :
    ({ Config.exampleCfg with cntW := 1 } : Config).cntWOk = false ∧
      ({ Config.exampleCfg with cntW := 33 } : Config).cntWOk = false ∧
      ({ Config.exampleCfg with cntW := 33 } : Config).wellFormed = false := by decide

theorem test_regBase_aligned :
    ({ Config.exampleCfg with regBase := 0x40000010 } : Config).regBaseOk = false ∧
      ({ Config.exampleCfg with regBase := 0x40000010 } : Config).wellFormed = false := by decide

/-! ### Decoding: RSV in bits 31 to 5, VAL in bit 4, OP in bits 3 to 0 -/

theorem test_decode_encode : decode 0b000000000000000000000000000_0_0001#32 = .ok .encode := by decide
theorem test_decode_decode : decode 0b000000000000000000000000000_0_0010#32 = .ok .decode := by decide
theorem test_decode_correct : decode 0b000000000000000000000000000_0_0011#32 = .ok .correct := by decide
theorem test_decode_getBit : decode 0b000000000000000000000000000_0_0100#32 = .ok .getBit := by decide
theorem test_decode_setBit0 : decode 0b000000000000000000000000000_0_0101#32 = .ok (.setBit false) := by decide
theorem test_decode_setBit1 : decode 0b000000000000000000000000000_1_0101#32 = .ok (.setBit true) := by decide
theorem test_decode_flipBit : decode 0b000000000000000000000000000_0_0110#32 = .ok .flipBit := by decide

/-- V-CMD-1 to V-CMD-6. -/
theorem test_decode_illegal :
    decode 0x00000000 = .error .reservedOp ∧ decode 0x00000007 = .error .reservedOp ∧
      decode 0x0000000F = .error .reservedOp ∧ decode 0x00000011 = .error .strayVal ∧
      decode 0x80000001 = .error .reservedBits ∧ decode 0x00000025 = .error .reservedBits := by decide

theorem test_encode_words :
    [Instr.encode, .decode, .correct, .getBit, .setBit false, .setBit true, .flipBit].map encode =
      [0x1, 0x2, 0x3, 0x4, 0x5, 0x15, 0x6] := by decide

/-! ### Small states -/

/-- Bytes at consecutive addresses. -/
def cells (a : Nat) : List Byte → Memory
  | [] => []
  | b :: rest => (a, b) :: cells (a + 1) rest

/-- An idle block with operands and listed bytes. -/
def idleState (d r c : Word) (m : Memory) : State := { State.reset with dstAddr := d, srcAddr := r, count := c, mem := m }

/-- A block whose pending command has those operands. -/
def busyState (i : Instr) (d r c : Word) (m : Memory) : State :=
  { idleState d r c m with pending := some { cmd := i, dst := d, src := r, cnt := c } }

/-- The machine went on, to a state that passes a check. -/
def nextWith (o : Host.Outcome State Fault Refusal) (f : State → Bool) : Bool :=
  match o with
  | .next t => f t
  | .fault _ => false
  | .refused _ => false

/-- The machine went on. -/
def isNext (o : Host.Outcome State Fault Refusal) : Bool := nextWith o (fun _ => true)

theorem exists_next {o : Host.Outcome State Fault Refusal} (h : isNext o = true) : ∃ t, o = .next t := by
  cases o with
  | next t => exact ⟨t, rfl⟩
  | fault _ => cases h
  | refused _ => cases h

theorem exists_nextWith {o : Host.Outcome State Fault Refusal} {f : State → Bool} (h : nextWith o f = true) :
    ∃ t, o = .next t ∧ f t = true := by
  cases o with
  | next t => exact ⟨t, rfl, h⟩
  | fault _ => cases h
  | refused _ => cases h

/-- The listed bytes from an address on. -/
def listed (t : State) (a n : Nat) : List (Option Byte) := (List.range' a n).map (Memory.get? t.mem)

/-! ### One step of each command -/

/-- V-ENC-12. -/
theorem test_encode_message :
    nextWith (exec .encode (busyState .encode 0x10 0 32 (cells 0 [1, 2, 3, 4] ++ cells 0x10 [0, 0, 0, 0, 0])))
      (fun t => decide (listed t 0x10 5 = [0x8D, 0x20, 0x60, 0x80, 0x01].map some) && decide (t.resCount = 38) &&
        !t.busy) = true := by decide

/-- V-ENC-3: the output's tail bits. -/
theorem test_encode_tail :
    nextWith (exec .encode (busyState .encode 0x10 0 1 (cells 0 [0] ++ cells 0x10 [0xFF])))
      (fun t => decide (listed t 0x10 1 = [some 0xF8]) && decide (t.resCount = 3)) = true := by decide

/-- V-DEC-8. -/
theorem test_decode_corrupted :
    nextWith (exec .decode (busyState .decode 0x20 0x10 38 (cells 0x10 [0xAD, 0x20, 0x60, 0x80, 0x01] ++ cells 0x20 [0, 0, 0, 0])))
      (fun t => decide (listed t 0x20 4 = [0x05, 0x02, 0x03, 0x04].map some) && decide (t.resCount = 32) &&
        decide (t.resSynd = 6)) = true := by decide

/-- V-DEC-9: the output's tail bits. -/
theorem test_decode_tail :
    nextWith (exec .decode (busyState .decode 0x20 0x10 3 (cells 0x10 [0x07] ++ cells 0x20 [0xF0])))
      (fun t => decide (listed t 0x20 1 = [some 0xF1]) && decide (t.resCount = 1) && decide (t.resSynd = 0)) = true := by
  decide

/-- V-COR-5. -/
theorem test_correct_data_error :
    nextWith (exec .correct (busyState .correct 0x30 0x10 38 (cells 0x10 [0xAD, 0x20, 0x60, 0x80, 0x01] ++ cells 0x30 [0, 0, 0, 0])))
      (fun t => decide (listed t 0x30 4 = [0x01, 0x02, 0x03, 0x04].map some) && decide (t.resCount = 32) &&
        decide (t.resSynd = 6)) = true := by decide

/-- V-COR-4: a syndrome beyond the codeword. -/
theorem test_correct_out_of_range :
    nextWith (exec .correct (busyState .correct 0x30 0x10 5 (cells 0x10 [0x0C] ++ cells 0x30 [0])))
      (fun t => decide (listed t 0x30 1 = [some 0x01]) && decide (t.resCount = 2) && decide (t.resSynd = 7)) = true := by
  decide

/-- V-BIT-1 and, at the next byte, V-BIT-4. -/
theorem test_getBit :
    nextWith (exec .getBit (busyState .getBit 0x40 0 2 (cells 0x40 [0xA5]))) (fun t => decide (t.resBit = 1)) = true ∧
      nextWith (exec .getBit (busyState .getBit 0x40 0 8 (cells 0x40 [0xFF, 0x00]))) (fun t => decide (t.resBit = 0)) =
        true := by decide

/-- V-BIT-5 and V-BIT-6. -/
theorem test_setBit :
    nextWith (exec (.setBit true) (busyState (.setBit true) 0x40 0 1 (cells 0x40 [0xA5])))
        (fun t => decide (t.mem = cells 0x40 [0xA7])) = true ∧
      nextWith (exec (.setBit false) (busyState (.setBit false) 0x40 0 7 (cells 0x40 [0xA7])))
        (fun t => decide (t.mem = cells 0x40 [0x27])) = true := by decide

/-- V-BIT-9 and V-BIT-10. -/
theorem test_flipBit :
    nextWith (exec .flipBit (busyState .flipBit 0x40 0 12 (cells 0x40 [0x00, 0x00])))
        (fun t => decide (t.mem = cells 0x40 [0x00, 0x10])) = true ∧
      nextWith (exec .flipBit (busyState .flipBit 0x3F 0 12 (cells 0x40 [0x10])))
        (fun t => decide (t.mem = cells 0x40 [0x00])) = true := by decide

/-! ### The handshake -/

/-- V-CMD-1 (FCODE 1), V-ENC-F1 (2), V-BIT-12 (3), V-ENC-F4 (4) and V-CMD-7 (5, with BUSY still 1): the STATUS word. -/
theorem test_status_after_faults :
    nextWith (cmdWrite 0 State.reset) (fun t => decide (t.statusWord = 0x12)) = true ∧
      nextWith (cmdWrite 0x1 (idleState 0x10 0 0xFFFFFFE0 [])) (fun t => decide (t.statusWord = 0x22)) = true ∧
      nextWith (cmdWrite 0x4 (idleState 0xFFFF 0 8 [])) (fun t => decide (t.statusWord = 0x32)) = true ∧
      nextWith (cmdWrite 0x1 (idleState 0x10 0x13 32 [])) (fun t => decide (t.statusWord = 0x42)) = true ∧
      nextWith (cmdWrite 0x6 (busyState .getBit 0x40 0 0 [])) (fun t => decide (t.statusWord = 0x53)) = true := by
  decide

/-- V-REG-3: a narrow register keeps its low bits. -/
theorem test_dstAddr_width :
    nextWith (writeReg .dstAddr 0x12345678 State.reset) (fun t => decide (t.dstAddr = 0x5678)) = true := by decide

/-- V-REG-5: a one-byte write to the window. -/
theorem test_busError :
    nextWith (busWrite 0x40000008 1 0 State.reset)
      (fun t => t.mark.busError && decide (t.dstAddr = 0) && decide (t.response = some .busError)) = true := by
  decide

/-- 00_scope.md R14: the first encoded lengths, and Lenc(32). -/
theorem test_lenc :
    (List.range 20).map lenc = [0, 3, 5, 6, 7, 9, 10, 11, 12, 13, 14, 15, 17, 18, 19, 20, 21, 22, 23, 24] ∧ lenc 32 = 38 := by
  decide

/-! ### Witnesses: encoding and steps -/

/-- One word for each of the four disjuncts, at the edge of its range. -/
theorem witness_IllegalCmdIsRaisedByExactlyTheIllegalWords :
    State.reset.fault = none ∧ State.reset.pending = none ∧ (0x0#32).toNat % 16 = 0 ∧ 7 ≤ (0x7#32).toNat % 16 ∧
      (0x21#32).toNat / 32 ≠ 0 ∧ (0x16#32).toNat / 16 % 2 = 1 ∧ (0x16#32).toNat % 16 ≠ 5 ∧
      ∃ t, cmdWrite 0x16 State.reset = .next t ∧ t.fault = some FaultCode.illegalCmd := by
  refine ⟨rfl, rfl, by decide, by decide, by decide, by decide, by decide, _, rfl, by decide⟩

/-- A host about to write `op` to the block. -/
def hostState (op : HostOp) : State := { State.reset with hostProg := [op.line] }

theorem witness_HostCmdWriteStepRunsTheDecodedCommand :
    (hostState (.busWrite 0x40000000 4 0x15)).mover = Agent.host ∧
      (hostState (.busWrite 0x40000000 4 0x15)).hostFailed = false ∧
      (hostState (.busWrite 0x40000000 4 0x15)).hostProg[0]? = some (HostOp.busWrite 0x40000000 4 0x15).line ∧
      (hostState (.busWrite 0x40000000 4 0x15)).fault = none ∧ (hostState (.busWrite 0x40000000 4 0x15)).pending = none ∧
      decode 0x15 = .ok (.setBit true) ∧
      (hostState (.wr .cmd (.lit (0x1#32).toNat))).mover = Agent.host ∧
      (hostState (.wr .cmd (.lit (0x1#32).toNat))).hostProg[0]? = some (HostOp.wr .cmd (.lit (0x1#32).toNat)).line ∧
      decode 0x1 = .ok .encode := by decide

theorem witness_BlockStepCompletesThePendingCommand :
    (busyState .flipBit 0x40 0 0 []).mover = Agent.block ∧
      (busyState .flipBit 0x40 0 0 []).pending = some { cmd := .flipBit, dst := 0x40, src := 0, cnt := 0 } ∧
      (busyState .flipBit 0x40 0 0 []).raced = [] := by decide

theorem witness_FetchedWordRunsInTheNextStep : decodeTableWord 32 0x15 = some (.setBit true) := by decide

/-- The next step runs the placed word: GET_BIT is issued and pending. -/
theorem test_withFetchWord :
    nextWith (step (State.reset.withFetchWord 32 0x4)) (fun t => t.busy && !t.faulted) = true := by decide

/-! ### Witnesses: reset -/

theorem witness_ResetEventClearsTheRegisters :
    ({ busyState .flipBit 0x40 0 0 [] with schedule := [.reset] } : State).mover = Agent.reset := by decide

/-- An ENCODE whose output ends at the last byte of memory is abandoned: bytes outside it, and bytes inside it. -/
theorem witness_ResetKeepsMemoryOutsideTheAbandonedOutput :
    let s : State := { busyState .encode 0xFFFB 0 32 [] with schedule := [.reset] }
    let p : Pending := { cmd := .encode, dst := 0xFFFB, src := 0, cnt := 32 }
    s.mover = Agent.reset ∧ (∃ t, step s = .next t) ∧ s.pending = some p ∧ p.outBytes.has 0xFFFA = false ∧
      4 < p.outBytes.len ∧ p.outBytes.base + 4 = 0xFFFF ∧ 0xFFFF < s.cfg.memBytes := by
  refine ⟨rfl, exists_next (by decide), rfl, by decide, by decide, by decide, by decide⟩

/-! ### Witnesses: the CMD write -/

theorem inMemory_of {s : State} {p : Pending} (h : p.leavesMemory s.cfg = false) : InMemory s p :=
  (leavesMemory_eq_false_iff s.cfg p).1 h

theorem noOverlap_of {p : Pending} (h : p.overlaps = false) : NoOverlap p := (overlaps_eq_false_iff p).1 h

theorem ready_of {s : State} {p : Pending} {i : Instr} (hp : s.pending = some p) (hi : p.cmd = i)
    (h : p.leavesMemory s.cfg = false) (ho : p.overlaps = false) : Ready s p i :=
  ⟨hp, hi, inMemory_of h, noOverlap_of ho⟩

/-- The clauses of a faulted, a busy and an idle block with an illegal word. -/
theorem witness_CmdWriteFollowsTheTestsInOrder_before_checks :
    ({ State.reset with fault := some FaultCode.range } : State).fault ≠ none ∧
      (busyState .getBit 0 0 0 []).fault = none ∧ (busyState .getBit 0 0 0 []).pending ≠ none ∧
      State.reset.fault = none ∧ State.reset.pending = none ∧ decode 0x7 = .error .reservedOp := by decide

/-- COUNT_OVERFLOW at its bound (V-ENC-F1), and not one below it (V-ENC-F2, which leaves memory). -/
theorem witness_CmdWriteFollowsTheTestsInOrder_countOverflow :
    2 ^ (32 : Nat) - 1 < lenc (0xFFFFFFE0#32).toNat ∧ ¬2 ^ (32 : Nat) - 1 < lenc (0xFFFFFFDF#32).toNat ∧
      (idleState 0x10 0 0xFFFFFFE0 []).cfg.cntW = 32 ∧ decode 0x1 = .ok .encode := by decide

/-- RANGE at its bound: V-ENC-F3 leaves memory by one byte; with the output one byte lower it does not. -/
theorem witness_CmdWriteFollowsTheTestsInOrder_range :
    (∃ a, Pending.touches { cmd := .encode, dst := 0xFFFC, src := 0, cnt := 32 } a = true ∧ 65536 ≤ a) ∧
      ∀ a, Pending.touches { cmd := .encode, dst := 0xFFFB, src := 0, cnt := 32 } a = true → a < 65536 :=
  ⟨⟨0x10000, by decide, by decide⟩,
    (leavesMemory_eq_false_iff Config.exampleCfg { cmd := .encode, dst := 0xFFFB, src := 0, cnt := 32 }).1 (by decide)⟩

/-- OVERLAP at its bound: V-ENC-F4 shares a byte, V-ENC-F7 is adjacent; both stay in memory. -/
theorem witness_CmdWriteFollowsTheTestsInOrder_overlap :
    (∃ a, (Pending.inBytes { cmd := .encode, dst := 0x10, src := 0x13, cnt := 32 }).has a = true ∧
        (Pending.outBytes { cmd := .encode, dst := 0x10, src := 0x13, cnt := 32 }).has a = true) ∧
      (∀ a, Pending.touches { cmd := .encode, dst := 0x10, src := 0x13, cnt := 32 } a = true → a < 65536) ∧
      (¬∃ a, (Pending.inBytes { cmd := .encode, dst := 4, src := 0, cnt := 32 }).has a = true ∧
        (Pending.outBytes { cmd := .encode, dst := 4, src := 0, cnt := 32 }).has a = true) ∧
      ∀ a, Pending.touches { cmd := .encode, dst := 4, src := 0, cnt := 32 } a = true → a < 65536 := by
  refine ⟨⟨0x14, by decide, by decide⟩,
    (leavesMemory_eq_false_iff Config.exampleCfg { cmd := .encode, dst := 0x10, src := 0x13, cnt := 32 }).1 (by decide),
    fun ⟨a, h1, h2⟩ => ?_,
    (leavesMemory_eq_false_iff Config.exampleCfg { cmd := .encode, dst := 4, src := 0, cnt := 32 }).1 (by decide)⟩
  have := (overlaps_eq_false_iff { cmd := .encode, dst := 4, src := 0, cnt := 32 }).1 (by decide) a h1
  rw [this] at h2
  cases h2

/-- A suppressed CMD write for each of the four codes. -/
theorem witness_SuppressedCmdWriteChangesOnlyTheFault :
    State.reset.fault = none ∧ State.reset.pending = none ∧
      (∃ t, cmdWrite 0x7 State.reset = .next t ∧ t.fault = some FaultCode.illegalCmd) ∧
      (∃ t, cmdWrite 0x1 (idleState 0x10 0 0xFFFFFFE0 []) = .next t ∧ t.fault = some FaultCode.countOverflow) ∧
      (∃ t, cmdWrite 0x4 (idleState 0xFFFF 0 8 []) = .next t ∧ t.fault = some FaultCode.range) ∧
      (∃ t, cmdWrite 0x1 (idleState 0 0 32 []) = .next t ∧ t.fault = some FaultCode.overlap) := by
  have get : ∀ (o : Host.Outcome State Fault Refusal) (c : FaultCode),
      nextWith o (fun t => decide (t.fault = some c)) = true → ∃ t, o = .next t ∧ t.fault = some c := fun o c h => by
    obtain ⟨t, h1, h2⟩ := exists_nextWith h
    exact ⟨t, h1, of_decide_eq_true h2⟩
  exact ⟨rfl, rfl, get _ _ (by decide), get _ _ (by decide), get _ _ (by decide),
    get _ _ (by decide)⟩

theorem witness_OverrunDiscardsTheWordAndThePendingCommandCompletes :
    (busyState .getBit 0x40 0 0 []).fault = none ∧
      (busyState .getBit 0x40 0 0 []).pending = some { cmd := .getBit, dst := 0x40, src := 0, cnt := 0 } ∧
      ∃ u, exec .getBit (busyState .getBit 0x40 0 0 []) = .next u := ⟨rfl, rfl, _, rfl⟩

/-- A faulted block: the host moves, the block moves with a command still pending, the reset input moves. -/
theorem witness_FaultStaysUntilReset :
    let s : State := { busyState .getBit 0x40 0 0 [] with fault := some FaultCode.cmdOverrun }
    s.fault = some FaultCode.cmdOverrun ∧ s.mover ≠ Agent.reset ∧ (∃ t, step s = .next t) ∧
      ({ s with schedule := [.host] } : State).mover ≠ Agent.reset ∧
      (∃ t, step { s with schedule := [.host] } = .next t) ∧
      ({ s with schedule := [.reset] } : State).mover = Agent.reset ∧
      ∃ t, step { s with schedule := [.reset] } = .next t :=
  ⟨rfl, by decide, exists_next (by decide), by decide, exists_next (by decide), by decide,
    exists_next (by decide)⟩

/-- The widest and the narrowest count. -/
theorem witness_CountOverflowBound :
    2 ≤ State.reset.cfg.cntW ∧ State.reset.fault = none ∧ State.reset.pending = none ∧ State.reset.cfg.cntW = 32 ∧
      2 ≤ ({ State.reset with cfg := { Config.exampleCfg with cntW := 2 } } : State).cfg.cntW := by decide

/-! ### Witnesses: the register window -/

/-- A byte of the window's first register, its last byte, a halfword that enters the window from below, and a
misaligned word; and a read-only register. -/
theorem witness_OtherWindowAccessesAreBusErrors :
    (∀ x ∈ [((0x40000000 : Nat), (1 : Nat)), (0x4000001F, 1), (0x3FFFFFFF, 2), (0x40000002, 4), (0x4000001D, 4)],
      (∃ b, State.reset.cfg.regBase ≤ b ∧ b < State.reset.cfg.regBase + 32 ∧ x.1 ≤ b ∧ b < x.1 + x.2) ∧
        ¬(x.2 = 4 ∧ ∃ k, k < 8 ∧ x.1 = State.reset.cfg.regBase + 4 * k)) ∧ (Reg.status = Reg.status) := by
  have hb : State.reset.cfg.regBase = 0x40000000 := rfl
  refine ⟨fun x hx => ?_, rfl⟩
  simp only [List.mem_cons, List.not_mem_nil, or_false] at hx
  rw [hb]
  obtain rfl | rfl | rfl | rfl | rfl := hx
  · exact ⟨⟨0x40000000, by decide⟩, fun h => absurd h.1 (by decide)⟩
  · exact ⟨⟨0x4000001F, by decide⟩, fun h => absurd h.1 (by decide)⟩
  · exact ⟨⟨0x40000000, by decide⟩, fun h => absurd h.1 (by decide)⟩
  · exact ⟨⟨0x40000002, by decide⟩, fun ⟨_, k, _, e⟩ => by simp only at e; omega⟩
  · exact ⟨⟨0x4000001D, by decide⟩, fun ⟨_, k, _, e⟩ => by simp only at e; omega⟩

/-! ### Witnesses: invariants and whole-machine rules -/

/-- A state far from reset: a command pending, an overrun recorded, a byte raced, memory listed up to its last byte. -/
def midState : State :=
  { busyState .encode 0x10 0 32 [(0, 1), (0x10, 7), (0xFFFF, 2)] with
    resCount := 0xFFFFFFFF
    fault := some FaultCode.cmdOverrun
    mark := { hostRace := true, busError := true }
    raced := [0x10]
    draws := 3 }

theorem midState_inv : midState.Inv where
  cfgOk := by decide
  memWf := by decide
  memInside := by decide
  dstFits := by decide
  srcFits := by decide
  countFits := by decide
  resCountFits := by decide
  resSyndFits := by decide
  pendingOk := fun p h => by cases h; decide
  pendingFault := fun _ => .inr rfl
  racedMarked := fun _ => ⟨rfl, rfl⟩
  racedInside := by decide

/-- The invariant and a next state, for each agent. -/
theorem witness_StepKeepsTheInvariant :
    midState.Inv ∧ (∃ t, step midState = .next t) ∧ (∃ t, step { midState with schedule := [.host] } = .next t) ∧
      ∃ t, step { midState with schedule := [.reset] } = .next t :=
  ⟨midState_inv, exists_next (by decide), exists_next (by decide), exists_next (by decide)⟩

theorem witness_ModelFaultMarkOnlyGrows :
    midState.mark.hostRace = true ∧ midState.mark.busError = true ∧
      ∃ t, step { midState with schedule := [.reset] } = .next t := ⟨rfl, rfl, exists_next (by decide)⟩

theorem witness_NoStepChangesTheConfiguration : ∃ t, step midState = .next t := exists_next (by decide)

/-- A host issue, a host step beside a pending command, a completion and a reset. -/
theorem witness_PendingCommandChangesOnlyByIssueCompletionAndReset :
    (∃ t, step (hostState (.busWrite 0x40000000 4 0x4)) = .next t ∧ (decide (t.pending ≠ none)) = true) ∧
      (hostState (.busWrite 0x40000000 4 0x4)).mover = Agent.host ∧
      (hostState (.busWrite 0x40000000 4 0x4)).pending = none ∧
      ({ midState with schedule := [.host] } : State).mover = Agent.host ∧ midState.pending ≠ none ∧
      (∃ t, step { midState with schedule := [.host] } = .next t) ∧ midState.mover = Agent.block ∧
      (∃ t, step midState = .next t) ∧ ({ midState with schedule := [.reset] } : State).mover = Agent.reset ∧
      ∃ t, step { midState with schedule := [.reset] } = .next t :=
  ⟨exists_nextWith (by decide), rfl, rfl, rfl, by decide, exists_next (by decide), rfl,
    exists_next (by decide), rfl, exists_next (by decide)⟩

theorem witness_HostStepsLeaveTheResultRegisters :
    (hostState (.wr .resCount (.lit 5))).mover = Agent.host ∧ ∃ t, step (hostState (.wr .resCount (.lit 5))) = .next t :=
  ⟨rfl, exists_next (by decide)⟩

/-- An issue, a completion, and a command word beside another pending command. -/
theorem witness_ExecChangesOnlyTheRegistersOfItsCommand :
    State.reset.pending = none ∧ (∃ t, exec .getBit State.reset = .next t) ∧
      (busyState .getBit 0x40 0 0 []).pending = some { cmd := .getBit, dst := 0x40, src := 0, cnt := 0 } ∧
      (∃ t, exec .getBit (busyState .getBit 0x40 0 0 []) = .next t) ∧ (Instr.getBit ≠ .flipBit) ∧
      ∃ t, exec .flipBit (busyState .getBit 0x40 0 0 []) = .next t :=
  ⟨rfl, ⟨_, rfl⟩, rfl, ⟨_, rfl⟩, by decide, ⟨_, rfl⟩⟩

/-- Each command completes, and leaves the byte after its output. -/
theorem witness_CompletionChangesOnlyTheBitsOfItsRule :
    ∀ i ∈ [Instr.encode, .decode, .correct, .getBit, .setBit true, .flipBit],
      (∃ t, exec i (busyState i 0x40 0 7 []) = .next t) ∧
        (Pending.outBytes { cmd := i, dst := 0x40, src := 0, cnt := 7 }).has 0x42 = false := by
  intro i hi
  simp only [List.mem_cons, List.not_mem_nil, or_false] at hi
  obtain rfl | rfl | rfl | rfl | rfl | rfl := hi <;> exact ⟨exists_next (by decide), by decide⟩

/-- The bits next to the last one that ENCODE of seven bits writes (it writes eleven) and to the one SET_BIT writes. -/
theorem witness_CompletionChangesOnlyTheBitsOfItsRule_bits :
    (∀ y, WritesBit .encode 7 y → ¬((0x41 : Nat) = 0x40 + y / 8 ∧ (3 : Nat) = y % 8)) ∧
      ∀ y, WritesBit (.setBit true) 7 y → ¬((0x40 : Nat) = 0x40 + y / 8 ∧ (6 : Nat) = y % 8) := by
  have h : lenc 7 = 11 := by decide
  refine ⟨fun y hy => ?_, fun y hy => ?_⟩
  · simp only [WritesBit, h] at hy
    omega
  · simp only [WritesBit] at hy
    omega

theorem witness_PendingCommandCompletesWithoutFault :
    midState.Inv ∧ midState.pending = some { cmd := .encode, dst := 0x10, src := 0, cnt := 32 } := ⟨midState_inv, rfl⟩

/-- Two host steps, one of which writes CMD while BUSY = 1. -/
theorem witness_PendingCommandCompletesAfterAnyHostSteps :
    let s : State := { midState with
      schedule := List.replicate 2 Agent.host, hostProg := [cmdLine .flipBit, (HostOp.rd .status).line] }
    s.Inv ∧ s.pending ≠ none ∧ s.schedule = List.replicate 2 Agent.host ∧
      ∃ u, Host.Core.run Sys2Proof.core 2 s = .next u :=
  ⟨{ midState_inv with }, by decide, rfl, exists_next (by decide)⟩

theorem witness_CompletionIgnoresTheLiveOperandRegisters :
    (busyState .flipBit 0x40 0 0 []).pending = some { cmd := .flipBit, dst := 0x40, src := 0, cnt := 0 } ∧
      ∃ t, exec .flipBit (busyState .flipBit 0x40 0 0 []) = .next t := ⟨rfl, _, rfl⟩

/-! ### Witnesses: the bit commands, at the last bit of memory (V-BIT-11) -/

theorem witness_GetBitReadsTheAddressedBit :
    (busyState .getBit 0xFFFF 0 7 []).pending = some { cmd := .getBit, dst := 0xFFFF, src := 0, cnt := 7 } ∧
      (0xFFFF#32).toNat + (7#32).toNat / 8 < (busyState .getBit 0xFFFF 0 7 []).cfg.memBytes := by decide

theorem witness_SetBitWritesTheAddressedBit :
    (busyState (.setBit true) 0xFFFF 0 7 []).pending = some { cmd := .setBit true, dst := 0xFFFF, src := 0, cnt := 7 } ∧
      (0xFFFF#32).toNat + (7#32).toNat / 8 < (busyState (.setBit true) 0xFFFF 0 7 []).cfg.memBytes := by decide

theorem witness_FlipBitInvertsTheAddressedBit :
    (busyState .flipBit 0xFFFF 0 7 []).pending = some { cmd := .flipBit, dst := 0xFFFF, src := 0, cnt := 7 } ∧
      (0xFFFF#32).toNat + (7#32).toNat / 8 < (busyState .flipBit 0xFFFF 0 7 []).cfg.memBytes := by decide

/-- W6: the two flips at index 3, and the read and the write at index 6, of the byte A5. -/
theorem witness_BitLawsOfR97 :
    (∃ t u, exec .flipBit (busyState .flipBit 0x40 0 3 (cells 0x40 [0xA5])) = .next t ∧
      Memory.read (busyState .flipBit 0x40 0 3 (cells 0x40 [0xAD])).mem 0x40 = Memory.read t.mem 0x40 ∧
      exec .flipBit (busyState .flipBit 0x40 0 3 (cells 0x40 [0xAD])) = .next u) ∧
    (∃ t u, exec .getBit (busyState .getBit 0x40 0 6 (cells 0x40 [0xA5])) = .next t ∧ t.resBit = BitVec.ofBool false ∧
      Memory.read (busyState (.setBit false) 0x40 0 6 (cells 0x40 [0xA5])).mem 0x40 = Memory.read t.mem 0x40 ∧
      exec (.setBit false) (busyState (.setBit false) 0x40 0 6 (cells 0x40 [0xA5])) = .next u) :=
  ⟨⟨_, _, rfl, by decide, rfl⟩, ⟨_, _, rfl, by decide, by decide, rfl⟩⟩

theorem witness_FlipChangesTheSyndromeByItsPosition :
    (busyState .flipBit 0x40 0 4 []).pending = some { cmd := .flipBit, dst := 0x40, src := 0, cnt := 4 } ∧
      (∃ t, exec .flipBit (busyState .flipBit 0x40 0 4 []) = .next t) ∧ (4#32).toNat < 5 := ⟨rfl, ⟨_, rfl⟩, by decide⟩

/-! ### Witnesses: the codeword commands -/

/-- ENCODE of the four bits 1101 (V-ENC-7). -/
def encodeState : State := busyState .encode 0x10 0 4 (cells 0 [0x0D] ++ cells 0x10 [0])

def encodeOperands : Pending := { cmd := .encode, dst := 0x10, src := 0, cnt := 4 }

theorem encodeState_ready : Ready encodeState encodeOperands .encode :=
  ready_of rfl rfl (by decide) (by decide)

/-- A codeword command on the seven bits that ENCODE left, those of `e` inverted: the byte is written out. -/
def onCodeword (i : Instr) (byte : Byte) : State := busyState i 0x20 0x10 7 (cells 0x10 [byte])

def onOperands (i : Instr) : Pending := { cmd := i, dst := 0x20, src := 0x10, cnt := 7 }

/-- Two ENCODEs of four equal bits (1101), the higher input bits and the addresses different. -/
theorem witness_EncodeDependsOnlyOnItsInputBits :
    Ready encodeState encodeOperands .encode ∧
      Ready (busyState .encode 0x30 0x22 4 (cells 0x22 [0xFD])) { cmd := .encode, dst := 0x30, src := 0x22, cnt := 4 } .encode ∧
      (∀ x, x < (4#32).toNat → bitRead (cells 0x22 [0xFD]) 0x22 x = bitRead encodeState.mem 0 x) ∧
      (∃ t, exec .encode encodeState = .next t) ∧
      ∃ t, exec .encode (busyState .encode 0x30 0x22 4 (cells 0x22 [0xFD])) = .next t :=
  ⟨encodeState_ready, ready_of rfl rfl (by decide) (by decide), by decide,
    exists_next (by decide), exists_next (by decide)⟩

/-- The largest length of a two-bit count is 3: one data bit. -/
theorem witness_EncodeReturnsTheEncodedLength :
    let s : State := { busyState .encode 0x10 0 1 [] with cfg := { Config.exampleCfg with cntW := 2 } }
    let p : Pending := { cmd := .encode, dst := 0x10, src := 0, cnt := 1 }
    s.pending = some p ∧ p.cmd = .encode ∧ InMemory s p ∧ lenc p.cnt.toNat ≤ 2 ^ s.cfg.cntW - 1 ∧ s.cfg.cntW ≤ 32 :=
  ⟨rfl, rfl, inMemory_of (by decide), by decide, by decide⟩

/-- The shortest codeword, and every shorter length. -/
theorem witness_EncodedLengthIsTheLeastWithThatManyDataPositions : 0 < lenc 1 ∧ 2 < lenc 1 ∧ lenc 1 = 3 := by decide

/-- The first and the last data bit. -/
theorem witness_EncodePlacesTheDataBits :
    Ready encodeState encodeOperands .encode ∧ (∃ t, exec .encode encodeState = .next t) ∧
      0 < encodeOperands.cnt.toNat ∧ dataPos 3 = true ∧ nData 3 = 0 + 1 ∧ 3 < encodeOperands.cnt.toNat ∧
      dataPos 7 = true ∧ nData 7 = 3 + 1 :=
  ⟨encodeState_ready, exists_next (by decide), by decide, by decide, by decide, by decide, by decide, by decide⟩

/-- The first and the last parity position of a seven-bit codeword. -/
theorem witness_EncodeStoresTheAccumulatorInTheParityBits :
    Ready encodeState encodeOperands .encode ∧ (∃ t, exec .encode encodeState = .next t) ∧
      2 ^ 0 ≤ lenc encodeOperands.cnt.toNat ∧ 2 ^ 2 ≤ lenc encodeOperands.cnt.toNat :=
  ⟨encodeState_ready, exists_next (by decide), by decide, by decide⟩

theorem witness_CodewordHasZeroSyndrome :
    Ready encodeState encodeOperands .encode ∧ ∃ t, exec .encode encodeState = .next t :=
  ⟨encodeState_ready, exists_next (by decide)⟩

theorem witness_DecodeReturnsCountAndSyndrome :
    Ready (onCodeword .decode 0x66) (onOperands .decode) .decode ∧
      (onOperands .decode).cnt.toNat < 2 ^ (onCodeword .decode 0x66).cfg.cntW :=
  ⟨ready_of rfl rfl (by decide) (by decide), by decide⟩

/-- The first and the last output bit. -/
theorem witness_DecodeExtractsTheDataBits :
    Ready (onCodeword .decode 0x66) (onOperands .decode) .decode ∧ (∃ t, exec .decode (onCodeword .decode 0x66) = .next t) ∧
      0 < nData (onOperands .decode).cnt.toNat ∧ dataPos 3 = true ∧ nData 3 = 0 + 1 ∧
      3 < nData (onOperands .decode).cnt.toNat ∧ dataPos 7 = true ∧ nData 7 = 3 + 1 :=
  ⟨ready_of rfl rfl (by decide) (by decide), exists_next (by decide), by decide, by decide,
    by decide, by decide, by decide, by decide⟩

/-- A syndrome that is corrected, and bit indices at both ends of the output. -/
theorem witness_CorrectFlipsTheBitTheSyndromeNames :
    Ready (onCodeword .correct 0x62) (onOperands .correct) .correct ∧
      0 < nData (onOperands .correct).cnt.toNat ∧ dataPos 3 = true ∧ nData 3 = 0 + 1 ∧
      3 < nData (onOperands .correct).cnt.toNat ∧ dataPos 7 = true ∧ nData 7 = 3 + 1 :=
  ⟨ready_of rfl rfl (by decide) (by decide), by decide, by decide, by decide, by decide, by decide, by decide⟩

/-- The least data position, alone in its codeword, and V-COR-9's. -/
theorem witness_FlippedIndexIsTheSlotOfTheSyndrome :
    ((3 : Nat) ≠ 0 ∧ isPow2 3 = false ∧ (3 : Nat) ≤ 3) ∧ ((38 : Nat) ≠ 0 ∧ isPow2 38 = false ∧ (38 : Nat) ≤ 38) := by
  decide

/-- V-ENC-F6 and its like: addresses at the end of memory. -/
theorem witness_ZeroLengthCommandsAreAcceptedAndTouchNothing :
    ∀ i ∈ [Instr.encode, .decode, .correct],
      Pending.cnt { cmd := i, dst := 0xFFFF, src := 0xFFFF, cnt := 0 } = 0 ∧
        (busyState i 0xFFFF 0xFFFF 0 []).pending = some { cmd := i, dst := 0xFFFF, src := 0xFFFF, cnt := 0 } :=
  fun _ _ => ⟨rfl, rfl⟩

/-- What ENCODE left at its output: 66 (V-ENC-7). -/
theorem codeword_bits {t : State} (h : exec .encode encodeState = .next t) (byte : Byte) (e : Nat → Bool)
    (he : ∀ y, y < 7 → bitRead (cells 0x10 [byte]) 0x10 y = (bitRead (cells 0x10 [0x66]) 0x10 y ^^ e y)) (i : Instr)
    (hl : (onOperands i).leavesMemory (onCodeword i byte).cfg = false) (ho : (onOperands i).overlaps = false) :
    OnCodeword i encodeOperands t (onCodeword i byte) (onOperands i) e := by
  have hm : nextWith (exec .encode encodeState) (fun t => decide (Memory.get? t.mem 0x10 = some 0x66)) = true := by
    decide
  rw [h] at hm
  have hg : Memory.get? t.mem 0x10 = some 0x66 := of_decide_eq_true hm
  refine ⟨ready_of rfl rfl hl ho, rfl, (by decide : (7 : Nat) = lenc (4#32).toNat), fun y hy => ?_⟩
  have hy7 : y < 7 := hy
  have hb : bitRead t.mem 0x10 y = bitRead (cells 0x10 [0x66]) 0x10 y := by
    apply bitRead_congr
    rw [show 0x10 + y / 8 = 0x10 by omega]
    unfold Memory.read
    rw [hg]
    rfl
  exact (he y hy7).trans (by rw [← hb]; rfl)

theorem witness_DecodeOfAnEncodedMessageReturnsTheMessage :
    Ready encodeState encodeOperands .encode ∧ ∃ t, exec .encode encodeState = .next t ∧
      OnCodeword .decode encodeOperands t (onCodeword .decode 0x66) (onOperands .decode) (fun _ => false) := by
  obtain ⟨t, ht⟩ := exists_next (o := exec .encode encodeState) (by decide)
  exact ⟨encodeState_ready, t, ht, codeword_bits ht _ _ (by decide) _ (by decide) (by decide)⟩

/-- Position 3, a data position, is corrupted; then position 1, a parity position; then 1, 2 and 3. -/
theorem witness_SyndromeOfACorruptedCodewordIsTheXorOfItsErrors :
    Ready encodeState encodeOperands .encode ∧ ∃ t, exec .encode encodeState = .next t ∧
      OnCodeword .decode encodeOperands t (onCodeword .decode 0x62) (onOperands .decode) (fun y => decide (y = 2)) ∧
      OnCodeword .decode encodeOperands t (onCodeword .decode 0x67) (onOperands .decode) (fun y => decide (y = 0)) ∧
      OnCodeword .decode encodeOperands t (onCodeword .decode 0x61) (onOperands .decode) (fun y => decide (y < 3)) ∧
      (2 < lenc encodeOperands.cnt.toNat ∧
        ∀ x, x < lenc encodeOperands.cnt.toNat → (decide (x = 2) = true ↔ x = 2)) := by
  obtain ⟨t, ht⟩ := exists_next (o := exec .encode encodeState) (by decide)
  exact ⟨encodeState_ready, t, ht, codeword_bits ht _ _ (by decide) _ (by decide) (by decide),
    codeword_bits ht _ _ (by decide) _ (by decide) (by decide),
    codeword_bits ht _ _ (by decide) _ (by decide) (by decide), by decide, fun x _ => by simp⟩

/-- No error, an error in a parity bit, and one in the last data bit. -/
theorem witness_CorrectRepairsAnySingleError :
    Ready encodeState encodeOperands .encode ∧ ∃ t, exec .encode encodeState = .next t ∧
      OnCodeword .correct encodeOperands t (onCodeword .correct 0x66) (onOperands .correct) (fun y => decide (none = some y)) ∧
      OnCodeword .correct encodeOperands t (onCodeword .correct 0x67) (onOperands .correct) (fun y => decide (some 0 = some y)) ∧
      OnCodeword .correct encodeOperands t (onCodeword .correct 0x26) (onOperands .correct) (fun y => decide (some 6 = some y)) := by
  obtain ⟨t, ht⟩ := exists_next (o := exec .encode encodeState) (by decide)
  exact ⟨encodeState_ready, t, ht, codeword_bits ht _ _ (by decide) _ (by decide) (by decide),
    codeword_bits ht _ _ (by decide) _ (by decide) (by decide),
    codeword_bits ht _ _ (by decide) _ (by decide) (by decide)⟩

/-- Positions 1 and 2, the closest pair; 1 and 7, the farthest; and 1, 2 and 3 (R142). -/
theorem witness_ZeroSyndromeErrorPatterns :
    Ready encodeState encodeOperands .encode ∧ ∃ t, exec .encode encodeState = .next t ∧
      OnCodeword .decode encodeOperands t (onCodeword .decode 0x65) (onOperands .decode) (fun y => decide (y = 0 ∨ y = 1)) ∧
      OnCodeword .decode encodeOperands t (onCodeword .decode 0x27) (onOperands .decode) (fun y => decide (y = 0 ∨ y = 6)) ∧
      OnCodeword .decode encodeOperands t (onCodeword .decode 0x61) (onOperands .decode) (fun y => decide (y < 3)) ∧
      6 < lenc encodeOperands.cnt.toNat ∧ 3 ≤ lenc encodeOperands.cnt.toNat ∧
      (∀ z, decide (z = 0 ∨ z = 1) = true ↔ z = 0 ∨ z = 1) ∧ ∀ z, decide (z < 3) = true ↔ z < 3 := by
  obtain ⟨t, ht⟩ := exists_next (o := exec .encode encodeState) (by decide)
  exact ⟨encodeState_ready, t, ht, codeword_bits ht _ _ (by decide) _ (by decide) (by decide),
    codeword_bits ht _ _ (by decide) _ (by decide) (by decide),
    codeword_bits ht _ _ (by decide) _ (by decide) (by decide), by decide, by decide,
    fun _ => decide_eq_true_iff, fun _ => decide_eq_true_iff⟩

/-! ### Witnesses: buffer memory and the host -/

theorem witness_CanonicalMemoriesThatListTheSameBytesAreEqual :
    Memory.wf (cells 3 [1, 2]) = true ∧ ∀ a, Memory.get? (cells 3 [1, 2]) a = Memory.get? (Memory.write (cells 4 [2]) 3 1) a :=
  ⟨by decide, fun _ => rfl⟩

/-- The last byte of memory and the first address that is none; a byte outside and one inside a pending footprint. -/
theorem witness_HostByteWriteIsReadBack :
    0xFFFF < midState.cfg.memBytes ∧ midState.inFootprint 0xFFFF = false ∧ midState.cfg.memBytes ≤ 0x10000 ∧
      midState.inFootprint 0x15 = false ∧ midState.inFootprint 0x14 = true := by decide

/-- The last input byte, the last output byte, and the byte after it. -/
theorem witness_FootprintAccessIsAHostRace :
    midState.pending = some { cmd := .encode, dst := 0x10, src := 0, cnt := 32 } ∧ 0x15 < midState.cfg.memBytes ∧
      Pending.touches { cmd := .encode, dst := 0x10, src := 0, cnt := 32 } 3 = true ∧
      Pending.touches { cmd := .encode, dst := 0x10, src := 0, cnt := 32 } 0x14 = true ∧
      Pending.touches { cmd := .encode, dst := 0x10, src := 0, cnt := 32 } 0x15 = false := by decide

/-- A host at the first line of WAIT, beside a pending command and beside an idle block. -/
theorem witness_WaitEndsAtTheFirstIdleStatusRead :
    let s : State := { midState with schedule := [.host, .host], hostProg := waitLines }
    let u : State := { State.reset with schedule := [.host, .host], hostProg := waitLines }
    s.schedule = Agent.host :: Agent.host :: [] ∧ s.hostFailed = false ∧ s.hostReads = [] ∧
      s.hostProg[s.hostPc]? = waitLines[0]? ∧
      s.hostProg[s.hostPc + 1]? = waitLines[1]? ∧ s.busy = true ∧
      u.hostProg[u.hostPc]? = waitLines[0]? ∧ u.hostProg[u.hostPc + 1]? = waitLines[1]? ∧ u.busy = false := by decide

/-- R84: reads inside an expression, one access a step (R179): `$1 = (LB 0x40) - ((RD COUNT) + 1)` is -3, after two steps. -/
theorem test_reads_in_an_expression :
    let s : State := { idleState 0 0 7 (cells 0x40 [5]) with
      hostProg := [(HostOp.mov 1 (.bin .sub (.lb (.lit 0x40)) (.bin .add (.rd .count) (.lit 1)))).line] }
    nextWith (step s) (fun t => decide (t.hostPc = 0) && decide (t.response = some (.byte 5)) &&
      nextWith (step t) (fun u => decide (u.hostPc = 1) && decide (u.hostVars = [(1, -3)]))) = true := by decide

/-- A word and an integer that is none, a byte and an integer that is none, at the last byte and around memory. -/
theorem witness_HostWritesOfAnyValueGoOn :
    ((0 : Int) ≤ 4294967295 ∧ (4294967295 : Int) < 4294967296) ∧ ¬((0 : Int) ≤ -1 ∧ (-1 : Int) < 4294967296) ∧
      ((0 : Int) ≤ 65535 ∧ (65535 : Int) < State.reset.cfg.memBytes) ∧
      ¬((0 : Int) ≤ 65536 ∧ (65536 : Int) < State.reset.cfg.memBytes) ∧
      ¬((0 : Int) ≤ -1 ∧ (-1 : Int) < State.reset.cfg.memBytes) ∧ ((0 : Int) ≤ 255 ∧ (255 : Int) < 256) ∧
      ¬((0 : Int) ≤ 256 ∧ (256 : Int) < 256) := by decide

/-- Each of the ways a step can end, from states that meet the invariant: a read at the first address past memory,
an SB at the last one below it, a bus access at the first address past the window. -/
theorem witness_StepStopsOnlyAtAHostAccessOutsideTheBlock :
    let host (op : HostOp) : State := { midState with schedule := [.host], hostProg := [op.line] }
    (∀ op, (host op).Inv) ∧ (∃ t, step (host (.mov 1 (.var 7))) = .next t) ∧
      (step (host (.mov 1 (.lb (.lit 65536)))) = .fault .noSuchByte ∧
        (HostOp.mov 1 (.lb (.lit 65536))).values [] [] = .needs (.byte 65536)) ∧
      (step (host (.sb (.lit (-1)) (.lit 0))) = .fault .noSuchByte ∧
        (HostOp.sb (.lit (-1)) (.lit 0)).values [] [] = .done (-1, 0) []) ∧
      step (host (.busRead 0x40000020 4)) = .refused .notThisBlock :=
  ⟨fun _ => { midState_inv with }, exists_next (by decide), ⟨rfl, rfl⟩, ⟨rfl, rfl⟩, rfl⟩

/-- A named label and the `1:` of R82 on one line: both are found there, and the branch of WAIT finds its own. -/
theorem test_two_labels_on_one_line :
    Target.resolve (labelled 7 waitLines) 1 (.named 7) = some 0 ∧
      Target.resolve (labelled 7 waitLines) 1 (.back 1) = some 0 := by decide

/-- A value that is no imm32, an unwritten variable and a division by 0 end no run; an untaken branch needs no label. -/
theorem test_no_value_ends_a_run :
    isNext (step (hostState (.wr .dstAddr (.lit (-1))))) = true ∧
      isNext (step (hostState (.sb (.lit 0) (.lit 256)))) = true ∧
      isNext (step (hostState (.add 1 (.bin .div (.var 2) (.lit 0))))) = true ∧
      nextWith (step (hostState (.blt (.lit 1) (.lit 1) (.named 9)))) (fun t => decide (t.hostPc = 1)) = true := by
  decide

/-- V-CMD-8 and P4: a faulted block ignores a legal command. -/
theorem test_faulted_block_ignores :
    nextWith (cmdWrite 0x15 { State.reset with fault := some FaultCode.illegalCmd })
      (fun t => decide (t.statusWord = 0x12) && !t.busy) = true := by decide

end Sys2Proof.Tests
end

section
/-! The helper functions of R13 meet independent definitions: powers of two, the least exponent, and counting one
by one. -/

namespace Sys2Proof.Machine

open Sys2Proof.Claims

theorem dataPos_iff (p : Nat) : dataPos p = true ↔ 1 ≤ p ∧ ¬∃ k, p = 2 ^ k := by
  have hpow : isPow2 p = true ↔ ∃ k, p = 2 ^ k := isPow2_iff_isPowerOfTwo p
  rw [← hpow]
  simp [dataPos]

/-- `clog2` and powers of two form a Galois connection: this is what "least exponent" says. -/
theorem clog2_le_iff (s k : Nat) : clog2 s ≤ k ↔ s ≤ 2 ^ k := by
  unfold clog2
  split
  · have := Nat.one_le_two_pow (n := k)
    omega
  · rw [Nat.succ_le_iff, Nat.log2_lt (by omega)]
    omega

theorem countBelow_succ (f : Nat → Bool) (c : Nat) :
    countBelow f (c + 1) = countBelow f c + if f c then 1 else 0 := by
  unfold countBelow
  rw [List.range_succ, List.filter_append, List.length_append]
  cases hf : f c <;> simp [hf]

/-- A function that starts at 0 and grows by one exactly where `f` holds is the count of `f`. -/
theorem eq_countBelow {g : Nat → Nat} {f : Nat → Bool} (zero : g 0 = 0)
    (succ : ∀ c, g (c + 1) = g c + if f c then 1 else 0) (c : Nat) : g c = countBelow f c := by
  induction c with
  | zero => exact zero
  | succ c ih => rw [succ, countBelow_succ, ih]

/-- Settles O42: each helper by its own characterisation; the two counts by how they grow. -/
theorem helperFunctionsMeetTheirDefinitions : Obligations.HelperFunctionsMeetTheirDefinitions :=
  ⟨isPow2_iff_isPowerOfTwo, dataPos_iff,
    fun s => ⟨(clog2_le_iff s _).1 (Nat.le_refl _), fun k => (clog2_le_iff s k).2⟩,
    eq_countBelow nPar_zero nPar_succ, eq_countBelow nData_zero nData_succ⟩

end Sys2Proof.Machine
end

section
/-! The configuration is kept by every step (R8, R20). -/

namespace Sys2Proof.Machine

theorem SameButHost.cfg_eq {s t : State} (h : SameButHost s t) : t.cfg = s.cfg := by
  obtain ⟨_, _, _, _, _, rfl⟩ := h
  rfl

theorem HostAccess.cfg_eq {s t : State} (h : HostAccess s t) : t.cfg = s.cfg := by
  obtain ⟨v, u, before, access, after⟩ := h
  obtain ⟨access_cfg, -⟩ := access.frame
  rw [after.cfg_eq, access_cfg, before.cfg_eq]

@[simp] theorem ruleOf_cfg (i : Instr) (p : Pending) (s : State) : (ruleOf i p s).cfg = s.cfg := by
  obtain ⟨_, _, _, _, e⟩ := ruleOf_frame i p s
  rw [e]

theorem agentStep_cfg {a : Agent} {s t : State} (h : agentStep a s = .next t) : t.cfg = s.cfg := by
  cases a with
  | host => exact (hostStep_cases h).cfg_eq
  | block => obtain ⟨-, rfl⟩ | ⟨p, -, -, rfl⟩ := blockStep_cases h <;> simp
  | reset => cases h; simp

/-- Settles O23: a step is an agent's step, and no agent writes the configuration. -/
theorem noStepChangesTheConfiguration : Obligations.NoStepChangesTheConfiguration := by
  intro s t h
  rw [step_eq] at h
  have kept := agentStep_cfg h
  exact kept

end Sys2Proof.Machine
end

section
/-! The invariant of the machine: it holds at power-on, and the host's accesses, the block's completion and the
reset event each keep it. -/

namespace Sys2Proof.Machine

/-! ### Operands of a command -/

theorem Pending.wellFormed_iff (c : Config) (p : Pending) :
    p.wellFormed c = true ↔ p.dst.toNat < 2 ^ c.addrW ∧ p.src.toNat < 2 ^ c.addrW ∧ p.cnt.toNat < 2 ^ c.cntW ∧
      p.issueFault c = none := by
  simp [Pending.wellFormed, and_assoc]

/-- An ENCODE that passed COUNT_OVERFLOW has a length that fits in CNT_W bits (R172). -/
theorem Pending.lenc_lt {c : Config} {p : Pending} (hi : p.cmd = .encode) (h : p.overflows c = false) :
    lenc p.cnt.toNat < 2 ^ c.cntW := by
  have pos := Nat.two_pow_pos c.cntW
  simp only [Pending.overflows, hi, decide_eq_false_iff_not] at h
  omega

theorem toNat_ofNat_lt {n w : Nat} (h : n < 2 ^ w) : (BitVec.ofNat 32 n).toNat < 2 ^ w := by
  rw [BitVec.toNat_ofNat]
  exact lt_of_le_of_lt (Nat.mod_le _ _) h

/-- Every command leaves RES_COUNT within CNT_W bits (R34). -/
theorem ruleOf_resCount_lt {s : State} {p : Pending} (hp : p.wellFormed s.cfg = true)
    (h : s.resCount.toNat < 2 ^ s.cfg.cntW) : (ruleOf p.cmd p s).resCount.toNat < 2 ^ s.cfg.cntW := by
  obtain ⟨-, -, hcnt, hissue⟩ := (Pending.wellFormed_iff _ _).1 hp
  obtain ⟨hover, -, -⟩ := (issueFault_none_iff _ _).1 hissue
  have hdata : nData p.cnt.toNat < 2 ^ s.cfg.cntW := lt_of_le_of_lt (nData_le _) hcnt
  cases hi : p.cmd with
  | encode =>
    refine toNat_ofNat_lt ?_
    rw [encodeRun_bits]
    exact Pending.lenc_lt hi hover
  | decode =>
    refine toNat_ofNat_lt ?_
    rwa [decodeRun_bits]
  | correct =>
    refine toNat_ofNat_lt ?_
    rwa [correctRun_bits]
  | getBit | setBit | flipBit => exact h

/-- Every command leaves RES_SYND within CNT_W bits (R35). -/
theorem ruleOf_resSynd_lt {s : State} {p : Pending} (hp : p.wellFormed s.cfg = true)
    (h : s.resSynd.toNat < 2 ^ s.cfg.cntW) : (ruleOf p.cmd p s).resSynd.toNat < 2 ^ s.cfg.cntW := by
  obtain ⟨-, -, hcnt, -⟩ := (Pending.wellFormed_iff _ _).1 hp
  cases p.cmd with
  | decode | correct => exact toNat_ofNat_lt (decodeRun_synd_lt _ _ _ _ _ hcnt)
  | encode | getBit | setBit | flipBit => exact h

/-! ### The host -/

theorem SameButHost.inv {s t : State} (h : SameButHost s t) (inv : s.Inv) : t.Inv := by
  obtain ⟨_, _, _, _, _, rfl⟩ := h
  exact { inv with }

/-- Recording a fault in an idle block. -/
theorem State.Inv.recordFault {s : State} (inv : s.Inv) (hp : s.pending = none) (c : FaultCode) :
    State.Inv { s with fault := some c } :=
  { inv with pendingFault := fun busy => by simp [hp] at busy }

/-- Latching the live operands, once they passed the issue checks (R33, R178). -/
theorem State.Inv.latchOperands {s : State} (inv : s.Inv) {i : Instr} (hf : s.fault = none)
    (hissue : (s.operands i).issueFault s.cfg = none) : (s.latch (s.operands i)).Inv :=
  { inv with
    pendingOk := fun p hp => by
      obtain rfl : s.operands i = p := Option.some.inj hp
      exact (Pending.wellFormed_iff _ _).2 ⟨inv.dstFits, inv.srcFits, inv.countFits, hissue⟩
    pendingFault := fun _ => .inl hf
    racedMarked := fun hr => ⟨(inv.racedMarked hr).1, rfl⟩ }

theorem issue_inv {s : State} (inv : s.Inv) (hp : s.pending = none) (i : Instr) : (issue i s).Inv := by
  obtain ⟨-, e⟩ | ⟨-, c, -, e⟩ | ⟨hf, hissue, e⟩ := issue_cases i s
  · rwa [e]
  · rw [e]
    exact inv.recordFault hp c
  · rw [e]
    exact inv.latchOperands hf hissue

theorem cmdWrite_inv {w : Word} {s t : State} (inv : s.Inv) (h : cmdWrite w s = .next t) : t.Inv := by
  obtain ⟨-, rfl⟩ | ⟨-, -, rfl⟩ | ⟨-, hp, -, rfl⟩ | ⟨-, hp, i, -, rfl⟩ := cmdWrite_cases h
  · exact inv
  · exact { inv with pendingFault := fun _ => .inr rfl }
  · exact inv.recordFault hp _
  · exact issue_inv inv hp i

/-- A register write keeps the upper bits of the operand registers 0 (R29, R30, R31, R32). -/
theorem writeReg_inv {r : Reg} {v : Word} {s t : State} (inv : s.Inv) (h : writeReg r v s = .next t) : t.Inv := by
  cases r with
  | cmd => exact cmdWrite_inv inv h
  | status | resCount | resSynd | resBit => cases h; exact inv
  | dstAddr => cases h; exact { inv with dstFits := keepLow_lt _ _ }
  | srcAddr => cases h; exact { inv with srcFits := keepLow_lt _ _ }
  | count => cases h; exact { inv with countFits := keepLow_lt _ _ }

theorem State.Inv.respond {s : State} (inv : s.Inv) (r : Response) : (s.respond r).Inv := { inv with }

theorem State.Inv.drew {s : State} (inv : s.Inv) (k : Nat) : (s.drew k).Inv := { inv with }

/-- A host write of a byte of buffer memory. -/
theorem State.Inv.writeByte {s : State} (inv : s.Inv) {a : Nat} (ha : a < s.cfg.memBytes) (b : Byte) :
    (s.setMem (Memory.write s.mem a b)).Inv :=
  { inv with
    memWf := wf_write _ _ _ inv.memWf
    memInside := inside_write _ _ _ _ ha inv.memInside }

theorem pending_isSome_of_inFootprint {s : State} {a : Nat} (h : s.inFootprint a = true) :
    s.pending.isSome = true := by
  unfold State.inFootprint at h
  split at h
  · cases h
  · simp [*]

theorem mem_race_raced {s : State} {a b : Nat} (h : b ∈ (s.race a).raced) : b = a ∨ b ∈ s.raced := by
  rw [race_raced] at h
  split at h
  · exact .inr h
  · exact List.mem_cons.1 h

/-- A HostRace marks the state and adds a byte of memory that belongs to the pending command (R187). -/
theorem State.Inv.race {s : State} (inv : s.Inv) {a : Nat} (ha : a < s.cfg.memBytes)
    (hf : s.inFootprint a = true) : (s.race a).Inv :=
  { inv.writeByte ha (Config.freeByte s.draws) with
    racedMarked := fun _ => ⟨rfl, pending_isSome_of_inFootprint hf⟩
    racedInside := fun b hb => by
      obtain rfl | hb := mem_race_raced hb
      · exact ha
      · exact inv.racedInside b hb }

theorem Access.inv {s t : State} (h : Access s t) (inv : s.Inv) : t.Inv := by
  cases h with
  | quiet _ h =>
    obtain rfl | ⟨r, rfl⟩ := h
    · exact inv
    · exact inv.respond r
  | write r v _ h => exact writeReg_inv (inv.respond .wrote) h
  | drawn r => exact (inv.drew 1).respond r
  | busError => exact { inv with }
  | race a k r ha hf => exact ((inv.race ha hf).drew k).respond r
  | store a b ha hf => exact (inv.writeByte ha b).respond .wrote

theorem HostAccess.inv {s t : State} (h : HostAccess s t) (inv : s.Inv) : t.Inv := by
  obtain ⟨v, u, before, access, after⟩ := h
  exact after.inv (access.inv (before.inv inv))

/-! ### The block and reset -/

/-- A completion, and the settling of the races with it. Between the two the raced bytes belong to no command, so
the invariant is shown of both together. -/
theorem State.Inv.completion {s : State} (inv : s.Inv) {p : Pending} (hp : s.pending = some p)
    (hm : p.leavesMemory s.cfg = false) : (settleRaces (ruleOf p.cmd p s).retire).Inv := by
  have wf := wf_ruleOf p.cmd p s inv.memWf
  have inside := inside_ruleOf p s hm inv.memInside
  have count := ruleOf_resCount_lt (inv.pendingOk p hp) inv.resCountFits
  have synd := ruleOf_resSynd_lt (inv.pendingOk p hp) inv.resSyndFits
  obtain ⟨m, rc, rs, rb, e⟩ := ruleOf_frame p.cmd p s
  rw [e] at wf inside count synd ⊢
  exact { inv with
    memWf := wf_drawAll _ _ _ wf
    memInside := inside_drawAll _ _ _ _ inv.racedInside inside
    resCountFits := count
    resSyndFits := synd
    pendingOk := fun _ h => by cases h
    pendingFault := fun h => by cases h
    racedMarked := fun h => absurd rfl h
    racedInside := fun _ h => by cases h }

theorem abandonedBytes_lt {s : State} {a : Nat} (h : a ∈ abandonedBytes s) : a < s.cfg.memBytes := by
  unfold abandonedBytes at h
  split at h
  · cases h
  · exact of_decide_eq_true (List.mem_filter.1 h).2

/-- A reset event clears every register and every race (R201, R202). -/
theorem State.Inv.resetEvent {s : State} (inv : s.Inv) : (resetEvent s).Inv :=
  { inv with
    memWf := wf_drawAll _ _ _ inv.memWf
    memInside := inside_drawAll _ _ _ _ (fun _ => abandonedBytes_lt) inv.memInside
    dstFits := Nat.two_pow_pos _
    srcFits := Nat.two_pow_pos _
    countFits := Nat.two_pow_pos _
    resCountFits := Nat.two_pow_pos _
    resSyndFits := Nat.two_pow_pos _
    pendingOk := fun _ h => by cases h
    pendingFault := fun h => by cases h
    racedMarked := fun h => absurd rfl h
    racedInside := fun _ h => by cases h }

theorem agentStep_inv {a : Agent} {s t : State} (inv : s.Inv) (h : agentStep a s = .next t) : t.Inv := by
  cases a with
  | host => exact (hostStep_cases h).inv inv
  | block =>
    obtain ⟨-, rfl⟩ | ⟨p, hp, hm, rfl⟩ := blockStep_cases h
    · exact inv
    · exact inv.completion hp hm
  | reset => cases h; exact inv.resetEvent

/-- Settles O20: a step is an agent's step, and each agent keeps the invariant. -/
theorem stepKeepsTheInvariant : Obligations.StepKeepsTheInvariant := by
  intro s t inv h
  rw [step_eq] at h
  exact agentStep_inv (s := { s with schedule := s.schedule.tail }) { inv with } h

/-- Settles O21: every register is 0, nothing is pending or listed, and the example configuration is legal (R8, R43). -/
theorem resetMeetsTheInvariant : Obligations.ResetMeetsTheInvariant where
  cfgOk := by decide
  memWf := rfl
  memInside := rfl
  dstFits := Nat.two_pow_pos _
  srcFits := Nat.two_pow_pos _
  countFits := Nat.two_pow_pos _
  resCountFits := Nat.two_pow_pos _
  resSyndFits := Nat.two_pow_pos _
  pendingOk := fun _ h => by cases h
  pendingFault := fun h => by cases h
  racedMarked := fun h => absurd rfl h
  racedInside := fun _ h => by cases h

end Sys2Proof.Machine
end

section
/-! The canonical form of memory is unique (R41, R50): a list of rising addresses is found again from what it lists. -/

namespace Sys2Proof.Machine

theorem wfFrom_cons {lo k : Nat} {v : Byte} {m : Memory} :
    Memory.wfFrom lo ((k, v) :: m) = true ↔ lo ≤ k ∧ Memory.wfFrom (k + 1) m = true := by
  simp [Memory.wfFrom]

theorem get?_cons (k a : Nat) (v : Byte) (m : Memory) :
    Memory.get? ((k, v) :: m) a = if a = k then some v else Memory.get? m a := rfl

/-- Nothing is listed below the start of a canonical memory. -/
theorem get?_eq_none_of_lt {lo a : Nat} {m : Memory} (wf : Memory.wfFrom lo m = true) (ha : a < lo) :
    Memory.get? m a = none := by
  induction m generalizing lo with
  | nil => rfl
  | cons cell rest ih =>
    obtain ⟨hk, wfRest⟩ := wfFrom_cons.1 wf
    rw [get?_cons, if_neg (by omega)]
    exact ih wfRest (by omega)

/-- An address that a canonical memory lists is not below its first one. -/
theorem head_le_of_get? {lo k a : Nat} {v b : Byte} {m : Memory} (wf : Memory.wfFrom lo ((k, v) :: m) = true)
    (listed : Memory.get? ((k, v) :: m) a = some b) : k ≤ a := by
  by_contra below
  have wfHead : Memory.wfFrom k ((k, v) :: m) = true := wfFrom_cons.2 ⟨Nat.le_refl k, (wfFrom_cons.1 wf).2⟩
  rw [get?_eq_none_of_lt wfHead (by omega)] at listed
  cases listed

/-- Two canonical memories that list the same have the same first address, the same byte there, and rests that list
the same. -/
theorem eq_of_get?_eq {lo : Nat} {m m' : Memory} (wf : Memory.wfFrom lo m = true) (wf' : Memory.wfFrom lo m' = true)
    (same : ∀ a, Memory.get? m a = Memory.get? m' a) : m = m' := by
  induction m generalizing lo m' with
  | nil =>
    cases m' with
    | nil => rfl
    | cons cell rest => simpa [Memory.get?] using same cell.1
  | cons cell rest ih =>
    obtain ⟨k, v⟩ := cell
    have first : Memory.get? m' k = some v := by rw [← same, get?_cons, if_pos rfl]
    cases m' with
    | nil => cases first
    | cons cell' rest' =>
      obtain ⟨k', v'⟩ := cell'
      have first' : Memory.get? ((k, v) :: rest) k' = some v' := by rw [same, get?_cons, if_pos rfl]
      obtain rfl : k = k' := Nat.le_antisymm (head_le_of_get? wf first') (head_le_of_get? wf' first)
      obtain rfl : v' = v := by simpa [get?_cons] using first
      obtain ⟨-, wfRest⟩ := wfFrom_cons.1 wf
      obtain ⟨-, wfRest'⟩ := wfFrom_cons.1 wf'
      have sameRest (a : Nat) : Memory.get? rest a = Memory.get? rest' a := by
        by_cases ha : a = k
        · rw [get?_eq_none_of_lt wfRest (by omega), get?_eq_none_of_lt wfRest' (by omega)]
        · simpa [get?_cons, ha] using same a
      rw [ih wfRest wfRest' sameRest]

/-- Settles O52: the canonical form from address 0 on. -/
theorem canonicalMemoriesThatListTheSameBytesAreEqual : Obligations.CanonicalMemoriesThatListTheSameBytesAreEqual :=
  fun _ _ wf wf' same => eq_of_get?_eq wf wf' same

end Sys2Proof.Machine
end

section
/-! The register window: the STATUS word, what the registers keep and return, and which accesses are bus errors. -/

namespace Sys2Proof.Machine

/-! ### The STATUS word (R25) -/

/-- A word of the layout of STATUS, as a number. -/
theorem statusLayout_toNat (code : BitVec 4) (fault busy : Bool) :
    ((((0#24 ++ code) ++ 0#2) ++ BitVec.ofBool fault) ++ BitVec.ofBool busy).toNat =
      busy.toNat + 2 * fault.toNat + 16 * code.toNat := by
  revert code fault busy
  decide

theorem statusWord_toNat (s : State) :
    s.statusWord.toNat = s.busy.toNat + 2 * s.faulted.toNat + 16 * s.fcode.toNat := statusLayout_toNat _ _ _

theorem busy_toNat (s : State) : s.busy.toNat = if s.pending = none then 0 else 1 := by
  unfold State.busy
  cases s.pending <;> rfl

theorem faulted_toNat (s : State) : s.faulted.toNat = if s.fault = none then 0 else 1 := by
  unfold State.faulted
  cases s.fault <;> rfl

/-- Settles O16: the layout as a number, and each field by its own definition. -/
theorem statusWordHoldsItsFields : Obligations.StatusWordHoldsItsFields := by
  intro s
  refine ⟨?_, rfl⟩
  rw [statusWord_toNat, busy_toNat, faulted_toNat]
  congr 2
  unfold State.fcode
  cases s.fault with
  | none => rfl
  | some c => cases c <;> rfl

/-! ### The operand registers (R32) -/

/-- Settles O17: each of the three writes keeps the low bits of its register. -/
theorem operandRegistersKeepTheirLowBits : Obligations.OperandRegistersKeepTheirLowBits :=
  fun _ v => ⟨⟨_, rfl, rfl, rfl, getLsbD_keepLow _ v⟩, ⟨_, rfl, rfl, rfl, getLsbD_keepLow _ v⟩,
    ⟨_, rfl, rfl, rfl, getLsbD_keepLow _ v⟩⟩

/-! ### Accesses that reach a register -/

/-- A word write at a register's offset is a write of that register. -/
theorem busWrite_offset (s : State) (r : Reg) (v : Word) :
    busWrite (s.cfg.regBase + r.offset) 4 v s = writeReg r v (s.respond .wrote) := by
  unfold busWrite
  rw [accessedReg_offset]

/-- A word read at a register's offset is a read of that register. -/
theorem busRead_offset (s : State) (r : Reg) :
    busRead (s.cfg.regBase + r.offset) 4 s = .next ((readReg r s).1.respond (.word (readReg r s).2)) := by
  unfold busRead
  rw [accessedReg_offset]

/-- A result register returns its value to an idle block's host, and a fresh free word while BUSY = 1 (R37, R207). -/
theorem readResult_eq (v : Word) (s : State) :
    readResult v s = if s.pending = none then (s, v) else (s.drew 1, Config.freeWord s.draws) := by
  unfold readResult State.busy
  cases s.pending <;> rfl

/-- The response to a read of a result register. -/
theorem respond_readResult (v : Word) (s : State) :
    (readResult v s).1.respond (.word (readResult v s).2) =
      if s.pending = none then { s with response := some (.word v) }
      else { s with response := some (.word (Config.freeWord s.draws)), draws := s.draws + 1 } := by
  rw [readResult_eq]
  split <;> rfl

/-- Settles O18: the read reaches its register; a result register by what `readResult` answers. -/
theorem registerReadsReturnTheirValues : Obligations.RegisterReadsReturnTheirValues := by
  intro s r
  rw [busRead_offset]
  cases r with
  | cmd | status | dstAddr | srcAddr | count => rfl
  | resCount | resSynd => exact congrArg _ (respond_readResult _ s)
  | resBit =>
    rw [BitVec.ofNat_toNat]
    exact congrArg _ (respond_readResult _ s)

/-! ### Accesses that are bus errors (R186) -/

/-- The registers stand at the multiples of 4 below 32. -/
theorem atOffset_eq_none {o : Nat} (h : ¬∃ k, k < 8 ∧ o = 4 * k) : Reg.atOffset o = none := by
  have ne (k : Nat) (hk : k < 8) : o ≠ 4 * k := fun e => h ⟨k, hk, e⟩
  simp [Reg.atOffset, ne 0, ne 1, ne 2, ne 3, ne 4, ne 5, ne 6, ne 7]

/-- Only an aligned word access reaches a register. -/
theorem accessedReg_eq_none {c : Config} {addr width : Nat}
    (h : ¬(width = 4 ∧ ∃ k, k < 8 ∧ addr = c.regBase + 4 * k)) : accessedReg c addr width = none := by
  unfold accessedReg
  split
  · rename_i word
    exact atOffset_eq_none fun ⟨k, hk, e⟩ => h ⟨word.1, k, hk, by omega⟩
  · rfl

theorem touchesWindow_iff (c : Config) (addr width : Nat) :
    touchesWindow c addr width = true ↔
      ∃ b, c.regBase ≤ b ∧ b < c.regBase + 32 ∧ addr ≤ b ∧ b < addr + width := by
  simp only [touchesWindow, Bool.and_eq_true, decide_eq_true_eq]
  constructor
  · rintro ⟨⟨below, above⟩, wide⟩
    exact ⟨max addr c.regBase, by omega, by omega, by omega, by omega⟩
  · rintro ⟨b, _, _, _, _⟩
    omega

/-- Settles O19: an access that reaches no register but touches the window answers with the bus error. -/
theorem otherWindowAccessesAreBusErrors : Obligations.OtherWindowAccessesAreBusErrors := by
  intro s addr width v
  constructor
  · intro inWindow notWord
    have noReg := accessedReg_eq_none notWord
    have touches := (touchesWindow_iff _ _ _).2 inWindow
    unfold busWrite busRead
    rw [noReg, touches]
    exact ⟨rfl, rfl⟩
  · rintro r (rfl | rfl | rfl | rfl) <;> exact busWrite_offset s _ v

end Sys2Proof.Machine
end

section
/-! What a step of each agent does to the pending command, the result registers and the schedule. -/

namespace Sys2Proof.Machine

theorem step_of_host {s : State} (host : s.mover = Agent.host) :
    step s = hostStep { s with schedule := s.schedule.tail } := by
  rw [step_eq, host]
  rfl

theorem step_of_block {s : State} (block : s.mover = Agent.block) :
    step s = blockStep { s with schedule := s.schedule.tail } := by
  rw [step_eq, block]
  rfl

theorem step_of_reset {s : State} (reset : s.mover = Agent.reset) :
    step s = .next (resetEvent { s with schedule := s.schedule.tail }) := by
  rw [step_eq, reset]
  rfl

/-- The step of a block with a pending command is its `exec`, then the settling of races (R33, R63). -/
theorem blockStep_of_pending {s : State} {p : Pending} (hp : s.pending = some p) :
    blockStep s = andThen (exec p.cmd s) (fun t => .next (settleRaces t)) := by
  unfold blockStep
  rw [hp]

/-! ### Host steps -/

/-- A host step leaves the schedule, the result registers, a recorded fault and a pending command. -/
theorem HostAccess.frame {s t : State} (h : HostAccess s t) :
    t.schedule = s.schedule ∧ t.resCount = s.resCount ∧ t.resSynd = s.resSynd ∧ t.resBit = s.resBit ∧
      (s.fault ≠ none → t.fault = s.fault) ∧ (s.pending ≠ none → t.pending = s.pending) := by
  obtain ⟨v, u, ⟨_, _, _, _, _, rfl⟩, access, ⟨_, _, _, _, _, rfl⟩⟩ := h
  obtain ⟨-, schedule, count, synd, bit, fault, pending, -⟩ := access.frame
  exact ⟨schedule, count, synd, bit, fault, pending⟩

/-- `t` holds a command that was just issued in `s`: no fault before or after, the operand registers latched (R33). -/
def Issued (s t : State) : Prop :=
  s.fault = none ∧ t.fault = none ∧ ∃ i, t.pending = some (s.operands i)

theorem issue_issued {i : Instr} {s : State} (idle : s.pending = none) (busy : (issue i s).pending ≠ none) :
    Issued s (issue i s) := by
  obtain ⟨-, e⟩ | ⟨-, c, -, e⟩ | ⟨noFault, -, e⟩ := issue_cases i s <;> rw [e] at busy ⊢
  · exact absurd idle busy
  · exact absurd idle busy
  · exact ⟨noFault, noFault, i, rfl⟩

theorem cmdWrite_issued {w : Word} {s t : State} (h : cmdWrite w s = .next t) (idle : s.pending = none)
    (busy : t.pending ≠ none) : Issued s t := by
  obtain ⟨-, rfl⟩ | ⟨-, wasBusy, -⟩ | ⟨-, -, -, rfl⟩ | ⟨-, -, i, -, rfl⟩ := cmdWrite_cases h
  · exact absurd idle busy
  · exact absurd idle wasBusy
  · exact absurd idle busy
  · exact issue_issued idle busy

/-- The only access that makes a command pending is a CMD write that issues it. -/
theorem Access.issued {s t : State} (h : Access s t) (idle : s.pending = none) (busy : t.pending ≠ none) :
    Issued s t := by
  cases h with
  | quiet _ h => obtain rfl | ⟨r, rfl⟩ := h <;> exact absurd idle busy
  | write r v _ h =>
    cases r with
    | cmd => exact cmdWrite_issued (s := s.respond .wrote) h idle busy
    | status | dstAddr | srcAddr | count | resCount | resSynd | resBit => cases h; exact absurd idle busy
  | drawn | busError | race | store => exact absurd idle busy

theorem HostAccess.issued {s t : State} (h : HostAccess s t) (idle : s.pending = none) (busy : t.pending ≠ none) :
    Issued s t := by
  obtain ⟨v, u, ⟨_, _, _, _, _, rfl⟩, access, ⟨_, _, _, _, _, rfl⟩⟩ := h
  exact access.issued idle busy

/-- When the host moves, the step is one access of the host, its turn taken off the schedule. -/
theorem step_hostAccess {s t : State} (host : s.mover = Agent.host) (h : step s = .next t) :
    HostAccess { s with schedule := s.schedule.tail } t :=
  hostStep_cases (step_of_host host ▸ h)

/-- Settles O25: the frame of a host access. -/
theorem hostStepsLeaveTheResultRegisters : Obligations.HostStepsLeaveTheResultRegisters := by
  intro s t h host
  obtain ⟨-, count, synd, bit, -⟩ := (step_hostAccess host h).frame
  exact ⟨count, synd, bit⟩

/-- A block step leaves nothing pending. -/
theorem blockStep_pending {s t : State} (h : blockStep s = .next t) : t.pending = none := by
  obtain ⟨idle, rfl⟩ | ⟨p, -, -, rfl⟩ := blockStep_cases h
  · exact idle
  · rfl

/-- Settles O24: each agent in turn. -/
theorem pendingCommandChangesOnlyByIssueCompletionAndReset :
    Obligations.PendingCommandChangesOnlyByIssueCompletionAndReset := by
  intro s t h
  refine ⟨fun host busy => ?_, fun host idle busy => (step_hostAccess host h).issued idle busy, fun block => ?_,
    fun reset => ?_⟩
  · obtain ⟨-, -, -, -, -, pending⟩ := (step_hostAccess host h).frame
    exact pending busy
  · exact blockStep_pending (step_of_block block ▸ h)
  · rw [step_of_reset reset] at h
    cases h
    rfl

/-! ### The completion after any number of host steps -/

/-- With a command pending and nothing scheduled, the block moves. -/
theorem mover_of_pending {s : State} (empty : s.schedule = []) (busy : s.pending ≠ none) : s.mover = Agent.block := by
  have : s.busy = true := Option.isSome_iff_ne_none.2 busy
  simp [State.mover, State.defaultAgent, empty, this]

/-- Under the invariant a pending command's footprint lies in memory. -/
theorem State.Inv.leavesMemory {s : State} (inv : s.Inv) {p : Pending} (hp : s.pending = some p) :
    p.leavesMemory s.cfg = false := by
  obtain ⟨-, -, -, checks⟩ := (Pending.wellFormed_iff _ _).1 (inv.pendingOk p hp)
  obtain ⟨-, inside, -⟩ := (issueFault_none_iff _ _).1 checks
  exact inside

/-- Under the invariant a block step completes the pending command. -/
theorem State.Inv.blockStep_next {s : State} (inv : s.Inv) (busy : s.pending ≠ none) :
    ∃ t, blockStep s = .next t ∧ t.pending = none := by
  obtain ⟨p, hp⟩ := Option.ne_none_iff_exists'.1 busy
  refine ⟨settleRaces (ruleOf p.cmd p s).retire, ?_, rfl⟩
  rw [blockStep_of_pending hp, exec_of_pending hp (inv.leavesMemory hp)]
  rfl

/-- A run of `k + 1` steps that goes on is a step that goes on, and a run of `k` steps. -/
theorem run_succ {M : Host.Core} {k : Nat} {s u : M.State} (run : M.run (k + 1) s = .next u) :
    ∃ t, M.step s = .next t ∧ M.run k t = .next u := by
  unfold Host.Core.run at run
  split at run
  next t h => exact ⟨t, h, run⟩
  · cases run
  · cases run

/-- `k` host steps keep the invariant and a pending command, and use up their turns. -/
theorem run_host_steps {k : Nat} {s u : State} {rest : List Agent} (inv : s.Inv) (busy : s.pending ≠ none)
    (turns : s.schedule = List.replicate k Agent.host ++ rest) (run : Host.Core.run Sys2Proof.core k s = .next u) :
    u.Inv ∧ u.pending = s.pending ∧ u.schedule = rest := by
  induction k generalizing s with
  | zero => cases run; exact ⟨inv, rfl, turns⟩
  | succ k ih =>
    obtain ⟨t, h, run⟩ := run_succ run
    have host : s.mover = Agent.host := by rw [State.mover, turns]; rfl
    obtain ⟨schedule, -, -, -, -, pending⟩ := (step_hostAccess host h).frame
    have kept : t.pending = s.pending := pending busy
    have left : t.schedule = List.replicate k Agent.host ++ rest := by rw [schedule, turns]; rfl
    rw [← kept]
    exact ih (stepKeepsTheInvariant s t inv h) (kept ▸ busy) left run

/-- Settles O29: the host steps keep the invariant and the command, then the block moves and completes it. -/
theorem pendingCommandCompletesAfterAnyHostSteps : Obligations.PendingCommandCompletesAfterAnyHostSteps := by
  intro s u k inv busy turns run
  obtain ⟨inv', kept, empty⟩ := run_host_steps inv busy (turns.trans (List.append_nil _).symm) run
  have busy' : u.pending ≠ none := kept ▸ busy
  refine ⟨kept, ?_⟩
  rw [step_of_block (mover_of_pending empty busy')]
  exact State.Inv.blockStep_next (s := { u with schedule := u.schedule.tail }) { inv' with } busy'

end Sys2Proof.Machine
end

section
/-! The register frame of `exec`, and what a completion reads. -/

namespace Sys2Proof.Machine

/-- An issue changes the pending command and the fault only. -/
theorem issue_frame (i : Instr) (s : State) :
    issue i s = { s with pending := (issue i s).pending, fault := (issue i s).fault } := by
  obtain ⟨-, e⟩ | ⟨-, c, -, e⟩ | ⟨-, -, e⟩ := issue_cases i s
  · rw [e]
  · rw [e]
  · rw [e]; rfl

theorem raiseFault_frame (c : FaultCode) (s : State) : s.raiseFault c = { s with fault := (s.raiseFault c).fault } := by
  unfold State.raiseFault
  split <;> rfl

/-- With another command pending, `exec` is an overrun (R180). -/
theorem exec_of_other {i : Instr} {s : State} {p : Pending} (hp : s.pending = some p) (hi : p.cmd ≠ i) :
    exec i s = .next (s.raiseFault .cmdOverrun) := by
  rw [exec_eq_runCommand, runCommand, hp]
  exact if_neg hi

/-- A completion changes memory, the pending command and the result registers only. -/
theorem retire_ruleOf_frame (i : Instr) (p : Pending) (s : State) :
    (ruleOf i p s).retire = { s with
      pending := none, mem := (ruleOf i p s).mem, resCount := (ruleOf i p s).resCount
      resSynd := (ruleOf i p s).resSynd, resBit := (ruleOf i p s).resBit } := by
  obtain ⟨_, _, _, _, e⟩ := ruleOf_frame i p s
  rw [e]
  rfl

/-- The bit commands leave RES_COUNT. -/
theorem ruleOf_resCount {i : Instr} (he : i ≠ .encode) (hd : i ≠ .decode) (hc : i ≠ .correct) (p : Pending)
    (s : State) : (ruleOf i p s).resCount = s.resCount := by
  cases i with
  | encode | decode | correct => contradiction
  | getBit | setBit | flipBit => rfl

/-- Only DECODE and CORRECT write RES_SYND. -/
theorem ruleOf_resSynd {i : Instr} (hd : i ≠ .decode) (hc : i ≠ .correct) (p : Pending) (s : State) :
    (ruleOf i p s).resSynd = s.resSynd := by
  cases i with
  | decode | correct => contradiction
  | encode | getBit | setBit | flipBit => rfl

/-- Only GET_BIT writes RES_BIT. -/
theorem ruleOf_resBit {i : Instr} (hg : i ≠ .getBit) (p : Pending) (s : State) :
    (ruleOf i p s).resBit = s.resBit := by
  cases i with
  | getBit => contradiction
  | encode | decode | correct | setBit | flipBit => rfl

/-- Settles O26: the issue, the completion, and the exec of another command than the pending one. -/
theorem execChangesOnlyTheRegistersOfItsCommand : Obligations.ExecChangesOnlyTheRegistersOfItsCommand := by
  intro i s t h
  refine ⟨fun idle => ?_, fun p hp hi => ?_, fun p hp hi => ?_⟩
  · rw [exec_of_idle idle] at h
    cases h
    exact issue_frame i s
  · obtain ⟨-, rfl⟩ := exec_completion hp hi h
    exact ⟨retire_ruleOf_frame i p s, fun he hd hc => ruleOf_resCount he hd hc p s,
      fun hd hc => ruleOf_resSynd hd hc p s, fun hg => ruleOf_resBit hg p s⟩
  · rw [exec_of_other hp hi] at h
    cases h
    exact raiseFault_frame _ s

/-- A rule reads the latched operands: other live operand registers only show up unchanged in the result. -/
theorem ruleOf_liveOperands (i : Instr) (p : Pending) (s : State) (d r c : Word) :
    ruleOf i p { s with dstAddr := d, srcAddr := r, count := c } =
      { ruleOf i p s with dstAddr := d, srcAddr := r, count := c } := by
  cases i <;> rfl

/-- Settles O30: the completion is its rule on the latched operands. -/
theorem completionIgnoresTheLiveOperandRegisters : Obligations.CompletionIgnoresTheLiveOperandRegisters := by
  intro s t p d r c hp h
  obtain ⟨inside, rfl⟩ := exec_completion hp rfl h
  have live := exec_of_pending (s := { s with dstAddr := d, srcAddr := r, count := c }) hp inside
  rw [ruleOf_liveOperands] at live
  exact live

end Sys2Proof.Machine
end

section
/-! A step runs the decoded command: the host's CMD write, the placed word, and the block's completion. -/

namespace Sys2Proof.Machine

/-- A CMD write of a legal word to an idle, unfaulted block is `exec` of its command (R178). -/
theorem cmdWrite_of_legal {w : Word} {i : Instr} {s : State} (noFault : s.fault = none) (idle : s.pending = none)
    (legal : decode w = .ok i) : cmdWrite w s = exec i s := by
  unfold cmdWrite
  rw [noFault, idle, legal]

theorem hostStep_eq_hostLine {s : State} {l : HostLine} (running : s.hostFailed = false)
    (line : s.hostProg[s.hostPc]? = some l) : hostStep s = hostLine l.op s := by
  unfold hostStep
  rw [running, line]
  rfl

/-- The line `WR CMD, w` and the bus write it encodes are one CMD write (R80). -/
theorem hostLine_cmdWrite {op : HostOp} {w : Word} {s : State}
    (hop : op = HostOp.busWrite s.cfg.regBase 4 w ∨ op = HostOp.wr Reg.cmd (Expr.lit w.toNat)) :
    hostLine op s = cmdWrite w (s.endLine.respond .wrote) := by
  obtain rfl | rfl := hop
  · exact (hostLine_of_done rfl).trans (busWrite_offset s.endLine .cmd w)
  · have imm : hostImm32 w.toNat s.endLine = (s.endLine, w) := by
      rw [hostImm32_of_lt (Int.natCast_nonneg _) (by exact_mod_cast w.isLt), Int.toNat_natCast, BitVec.ofNat_toNat,
        BitVec.setWidth_eq]
    refine (hostLine_of_done rfl).trans ?_
    simp only [hostFinish, hostWriteReg, imm]
    exact busWrite_offset s.endLine .cmd w

/-- A host whose next line writes a legal word to the CMD of an idle, unfaulted block runs its command. -/
theorem hostStep_of_legal {s : State} {w : Word} {i : Instr} {l : HostLine} (running : s.hostFailed = false)
    (line : s.hostProg[s.hostPc]? = some l)
    (hop : l.op = HostOp.busWrite s.cfg.regBase 4 w ∨ l.op = HostOp.wr Reg.cmd (Expr.lit w.toNat))
    (noFault : s.fault = none) (idle : s.pending = none) (legal : decode w = .ok i) :
    hostStep s = exec i (s.endLine.respond .wrote) := by
  rw [hostStep_eq_hostLine running line, hostLine_cmdWrite hop]
  exact cmdWrite_of_legal noFault idle legal

/-- Settles O4: the host moves, its line is a CMD write, and a legal one is `exec`. -/
theorem hostCmdWriteStepRunsTheDecodedCommand : Obligations.HostCmdWriteStepRunsTheDecodedCommand :=
  fun _ _ _ _ host running line hop noFault idle legal =>
    (step_of_host host).trans (hostStep_of_legal running line hop noFault idle legal)

/-- The line that `withFetchWord` places is the host's next one. -/
theorem withFetchWord_line (s : State) (nbits w : Nat) :
    (s.withFetchWord nbits w).hostProg[(s.withFetchWord nbits w).hostPc]? =
      some (HostOp.busWrite (s.cfg.regBase + Reg.cmd.offset) 4 (BitVec.ofNat 32 (w % 2 ^ nbits))).line := by
  simp [State.withFetchWord]

theorem decodeTableWord_eq_some {nbits w : Nat} {i : Instr} (h : decodeTableWord nbits w = some i) :
    decode (BitVec.ofNat 32 (w % 2 ^ nbits)) = .ok i := by
  unfold decodeTableWord at h
  split at h
  · cases hd : decode (BitVec.ofNat 32 (w % 2 ^ nbits)) with
    | ok j => rw [hd] at h; cases h; rfl
    | error r => rw [hd] at h; cases h
  · cases h

/-- Settles O6: the placed line is a CMD write of the word, which the step after it runs. -/
theorem fetchedWordRunsInTheNextStep : Obligations.FetchedWordRunsInTheNextStep := by
  intro s w i legal
  have runs := hostCmdWriteStepRunsTheDecodedCommand (s.withFetchWord 32 w) _ i _ rfl rfl (withFetchWord_line s 32 w)
    (.inl rfl) rfl rfl (decodeTableWord_eq_some legal)
  exact ⟨_, runs, rfl, rfl, rfl, rfl, rfl, rfl, rfl, rfl, rfl, rfl, rfl, rfl⟩

/-- A command touches no record of races: those are the host's. -/
theorem exec_raced {i : Instr} {s t : State} (h : exec i s = .next t) : t.raced = s.raced := by
  obtain ⟨-, rfl⟩ | ⟨p, -, -, -, rfl⟩ | ⟨p, -, -, rfl⟩ := exec_cases h
  · rw [issue_frame]
  · rw [retire_ruleOf_frame]
  · rw [raiseFault_raced]

/-- Settling the races of a command that was not raced changes nothing. -/
theorem andThen_settleRaces {i : Instr} {s : State} (noRace : s.raced = []) :
    andThen (exec i s) (fun t => .next (settleRaces t)) = exec i s := by
  cases h : exec i s with
  | next t => exact congrArg Host.Outcome.next (settleRaces_of_nil ((exec_raced h).trans noRace))
  | fault | refused => rfl

/-- Settles O5: the block's step is the completion and the settling of races. -/
theorem blockStepCompletesThePendingCommand : Obligations.BlockStepCompletesThePendingCommand := by
  intro s p block hp
  have completes := (step_of_block block).trans (blockStep_of_pending (s := { s with schedule := s.schedule.tail }) hp)
  exact ⟨completes, fun noRace => completes.trans (andThen_settleRaces noRace)⟩

/-- Settles O7: every register of the power-on state is 0, and it lists no byte, so each reads as its free value. -/
theorem powerOnStateHoldsTheResetValues : Obligations.PowerOnStateHoldsTheResetValues :=
  ⟨rfl, rfl, rfl, rfl, rfl, rfl, rfl, rfl, rfl, fun _ => rfl⟩

end Sys2Proof.Machine
end

section
/-! Bytes of buffer memory under the events of the block: what a reset draws (R202), when a footprint leaves memory
(R173), and the bits a completion writes (R61). -/

namespace Sys2Proof.Machine

open Sys2Proof.Claims

/-! ### Reset -/

/-- Drawing the bytes of a range that lie below a bound gives each the free byte of its place in the range. -/
theorem read_drawAll_range' {base len bound j : Nat} (hj : j < len) (inside : base + j < bound) (k : Nat) (m : Memory) :
    Memory.read (Memory.drawAll ((List.range' base len).filter (fun a => decide (a < bound))) k m) (base + j) =
      Config.freeByte (k + j) := by
  induction len generalizing base j k m with
  | zero => omega
  | succ len ih =>
    rw [List.range'_succ, List.filter_cons_of_pos (by simp; omega), Memory.drawAll]
    cases j with
    | zero =>
      rw [read_drawAll_other _ _ _ _ (by simp [List.mem_range'_1])]
      exact read_write_same m base _
    | succ j =>
      rw [show base + (j + 1) = base + 1 + j by omega, show k + (j + 1) = k + 1 + j by omega]
      exact ih (by omega) (by omega) _ _

theorem abandonedBytes_of_pending {s : State} {p : Pending} (hp : s.pending = some p) :
    abandonedBytes s = p.outBytes.addresses.filter (fun a => decide (a < s.cfg.memBytes)) := by
  unfold abandonedBytes
  rw [hp]

/-- Only output bytes of the abandoned command are drawn (R202). -/
theorem has_of_mem_abandonedBytes {s : State} {a : Nat} (h : a ∈ abandonedBytes s) :
    ∃ p, s.pending = some p ∧ p.outBytes.has a = true := by
  cases hp : s.pending with
  | none => simp [abandonedBytes, hp] at h
  | some p =>
    rw [abandonedBytes_of_pending hp] at h
    exact ⟨p, rfl, (ByteRange.has_iff _ _).2 (List.mem_range'_1.1 (List.mem_filter.1 h).1)⟩

/-- Settles O9: the step is the reset event, which draws the abandoned bytes in order. -/
theorem resetKeepsMemoryOutsideTheAbandonedOutput : Obligations.ResetKeepsMemoryOutsideTheAbandonedOutput := by
  intro s t reset h
  rw [step_of_reset reset] at h
  cases h
  rw [resetEvent_mem]
  constructor
  · intro a off
    refine read_drawAll_other _ _ _ _ fun abandoned => ?_
    obtain ⟨p, hp, has⟩ := has_of_mem_abandonedBytes abandoned
    exact Bool.false_ne_true ((off p hp).symm.trans has)
  · intro p hp j hj inside
    rw [abandonedBytes_of_pending (s := { s with schedule := s.schedule.tail }) hp]
    exact read_drawAll_range' hj inside _ _

/-! ### The RANGE condition -/

theorem nbytes_pos_iff (b : Nat) : 0 < nbytes b ↔ 0 < b := by
  unfold nbytes
  omega

theorem ByteRange.leaves_iff (r : ByteRange) (b : Nat) : r.leaves b = true ↔ 0 < r.len ∧ b < r.base + r.len := by
  simp [ByteRange.leaves]

/-- RANGE is raised exactly when some footprint byte is no byte of memory (R173). -/
theorem leavesMemory_iff (c : Config) (p : Pending) :
    p.leavesMemory c = true ↔ ∃ a, p.touches a = true ∧ c.memBytes ≤ a := by
  rw [← Bool.not_eq_false, leavesMemory_eq_false_iff]
  push Not
  rfl

/-- RANGE in the two ranges of R60. -/
theorem leavesMemory_iff_ranges (c : Config) (p : Pending) :
    p.leavesMemory c = true ↔
      (0 < p.inBytes.len ∧ c.memBytes < p.inBytes.base + p.inBytes.len) ∨
        (0 < p.outBytes.len ∧ c.memBytes < p.outBytes.base + p.outBytes.len) := by
  unfold Pending.leavesMemory
  rw [Bool.or_eq_true, ByteRange.leaves_iff, ByteRange.leaves_iff]

/-- Settles O15: the test of RANGE on the ranges of each command. -/
theorem rangeConditionWrittenOutPerCommand : Obligations.RangeConditionWrittenOutPerCommand := by
  intro c p
  rw [← leavesMemory_iff, leavesMemory_iff_ranges]
  unfold Pending.inBytes Pending.outBytes inBytes outBytes
  cases p.cmd with
  | encode | decode | correct => simp only [inBits, nbytes_pos_iff]
  | getBit | setBit | flipBit =>
    have noInput : nbytes 0 = 0 := rfl
    simp only [inBits, noInput]
    omega

/-! ### The bits of a rule -/

/-- A bit that a rule writes lies in an output byte (R60). -/
theorem outBytes_has_of_writesBit {p : Pending} {y : Nat} (h : WritesBit p.cmd p.cnt.toNat y) :
    p.outBytes.has (p.dst.toNat + y / 8) = true := by
  cases hi : p.cmd with
  | encode | decode | correct =>
    rw [hi] at h
    exact p.outBits_has (by rw [hi]; exact h)
  | getBit => rw [hi] at h; exact h.elim
  | setBit v =>
    rw [hi] at h
    obtain rfl : y = p.cnt.toNat := h
    exact p.bit_has (.inr (.inl ⟨v, hi⟩))
  | flipBit =>
    rw [hi] at h
    obtain rfl : y = p.cnt.toNat := h
    exact p.bit_has (.inr (.inr hi))

/-- A rule leaves every bit that it does not write (R91, R93, R95, R118, R136, R160). -/
theorem bitOf_ruleOf (i : Instr) (p : Pending) (s : State) {a k : Nat} (hk : k < 8)
    (off : ∀ y, WritesBit i p.cnt.toNat y → ¬(a = p.dst.toNat + y / 8 ∧ k = y % 8)) :
    bitOf (ruleOf i p s).mem a k = bitOf s.mem a k := by
  cases i with
  | encode => exact encodeRun_bit_off _ _ _ _ _ _ hk fun y _ => off y
  | decode => exact decodeRun_bit_off _ _ _ _ _ _ hk fun y _ => off y
  | correct => exact correctRun_bit_off _ _ _ _ _ _ hk fun y _ => off y
  | getBit => rfl
  | setBit v => exact (bit_bitWrite _ _ _ v _ _ hk).trans (if_neg (off _ rfl))
  | flipBit => exact (bit_bitFlip _ _ _ _ _ hk).trans (if_neg (off _ rfl))

/-- A rule leaves every byte outside its output bytes: it writes no bit of them (R61). -/
theorem read_ruleOf_other (p : Pending) (s : State) {a : Nat} (outside : p.outBytes.has a = false) :
    Memory.read (ruleOf p.cmd p s).mem a = Memory.read s.mem a := by
  refine BitVec.eq_of_getLsbD_eq fun k hk => bitOf_ruleOf p.cmd p s hk ?_
  rintro y writes ⟨rfl, -⟩
  exact Bool.false_ne_true (outside.symm.trans (outBytes_has_of_writesBit writes))

/-- Settles O27: the completion is its rule, byte by byte and bit by bit. -/
theorem completionChangesOnlyTheBitsOfItsRule : Obligations.CompletionChangesOnlyTheBitsOfItsRule := by
  rintro i s t p hp rfl h
  obtain ⟨-, rfl⟩ := exec_completion hp rfl h
  exact ⟨fun _ outside => read_ruleOf_other p s outside, fun _ _ hk off => bitOf_ruleOf p.cmd p s hk off⟩

end Sys2Proof.Machine
end

section
/-! The host's byte accesses to buffer memory (R50, R62, R63), beside a pending command and outside its footprint. -/

namespace Sys2Proof.Machine

/-! ### What a byte access is, case by case -/

section
variable {s : State} {a : Nat}

theorem inFootprint_of_pending {p : Pending} (hp : s.pending = some p) : s.inFootprint a = p.touches a := by
  unfold State.inFootprint
  rw [hp]

theorem hostStoreByte_of_race (ha : a < s.cfg.memBytes) (touched : s.inFootprint a = true) (b : Byte) :
    hostStoreByte a b s = .next ((s.race a).respond .wrote) := by
  unfold hostStoreByte
  rw [if_neg (Nat.not_le.2 ha), if_pos touched]

theorem hostStoreByte_of_untouched (ha : a < s.cfg.memBytes) (untouched : s.inFootprint a = false) (b : Byte) :
    hostStoreByte a b s = .next ((s.setMem (Memory.write s.mem a b)).respond .wrote) := by
  unfold hostStoreByte
  rw [if_neg (Nat.not_le.2 ha), untouched]
  rfl

theorem readByte_of_race (ha : a < s.cfg.memBytes) (touched : s.inFootprint a = true) :
    readByte a s = .next ((s.race a).drew 1, Config.freeByte (s.race a).draws) := by
  unfold readByte
  rw [if_neg (Nat.not_le.2 ha), if_pos touched]

theorem readByte_of_untouched (ha : a < s.cfg.memBytes) (untouched : s.inFootprint a = false) :
    readByte a s = .next (s, Memory.read s.mem a) := by
  unfold readByte
  rw [if_neg (Nat.not_le.2 ha), untouched]
  rfl

theorem readByte_noSuchByte (ha : s.cfg.memBytes ≤ a) : readByte a s = .fault .noSuchByte := if_pos ha

theorem readByte_next (ha : a < s.cfg.memBytes) : ∃ r, readByte a s = .next r := by
  cases touched : s.inFootprint a with
  | false => exact ⟨_, readByte_of_untouched ha touched⟩
  | true => exact ⟨_, readByte_of_race ha touched⟩

end

/-- Settles O53: the write of the byte, and reads of the state it leaves, whose footprint is the same. -/
theorem hostByteWriteIsReadBack : Obligations.HostByteWriteIsReadBack := by
  intro s a b
  refine ⟨fun ha untouched => ?_, fun ha => ⟨hostStoreByte_noSuchByte b ha, readByte_noSuchByte ha⟩⟩
  let t := (s.setMem (Memory.write s.mem a b)).respond .wrote
  have kept (c : Nat) (hc : c ≠ a) : Memory.read t.mem c = Memory.read s.mem c := read_write_other s.mem b hc
  have back : Memory.read t.mem a = b := read_write_same s.mem a b
  refine ⟨t, hostStoreByte_of_untouched ha untouched b, rfl, ?_, kept, fun c hc inside free => ?_⟩
  · rw [readByte_of_untouched (s := t) ha untouched, back]
  · rw [readByte_of_untouched (s := t) inside free, kept c hc]

/-- Settles O54: a raced byte takes the next draw, a read of it returns the draw after that. -/
theorem footprintAccessIsAHostRace : Obligations.FootprintAccessIsAHostRace := by
  intro s p a b hp ha
  rw [← inFootprint_of_pending hp]
  have kept (c : Nat) (hc : c ≠ a) : Memory.read (s.race a).mem c = Memory.read s.mem c := read_write_other _ _ hc
  have drawn : Memory.read (s.race a).mem a = Config.freeByte s.draws := read_write_same _ _ _
  constructor
  · intro touched
    have fresh : s.draws < s.draws + 1 := Nat.lt_succ_self _
    exact ⟨⟨_, hostStoreByte_of_race ha touched b, rfl, rfl, rfl, ⟨s.draws, le_rfl, fresh, drawn⟩, kept⟩,
      ⟨_, _, readByte_of_race ha touched, rfl, rfl, rfl,
        ⟨s.draws, s.draws + 1, fresh.ne, le_rfl, fresh.trans (Nat.lt_succ_self _), fresh.le, Nat.lt_succ_self _,
          drawn, rfl⟩, kept⟩⟩
  · intro untouched
    exact ⟨⟨_, hostStoreByte_of_untouched ha untouched b, rfl⟩, readByte_of_untouched ha untouched⟩

/-! ### WR and SB of any value (R80) -/

theorem ofNat_toNat_eq_ofInt {w : Nat} {v : Int} (h : 0 ≤ v) : BitVec.ofNat w v.toNat = BitVec.ofInt w v := by
  rw [← BitVec.ofInt_natCast, Int.toNat_of_nonneg h]

/-- A free word stands for an integer that is no imm32 (log 23). -/
theorem hostImm32_of_not {v : Int} (h : ¬(0 ≤ v ∧ v < 2 ^ 32)) (s : State) :
    hostImm32 v s = (s.drew 1, Config.freeWord s.draws) := if_neg h

/-- A free byte stands for an integer that is no imm8 (log 23). -/
theorem hostImm8_of_not {v : Int} (h : ¬(0 ≤ v ∧ v < 2 ^ 8)) (s : State) :
    hostImm8 v s = (s.drew 1, Config.freeByte s.draws) := if_neg h

theorem hostWriteReg_eq (r : Reg) (v : Int) (s : State) :
    hostWriteReg r v s =
      if 0 ≤ v ∧ v < 4294967296 then busWrite (s.cfg.regBase + r.offset) 4 (BitVec.ofInt 32 v) s
      else busWrite (s.cfg.regBase + r.offset) 4 (Config.freeWord s.draws) (s.drew 1) := by
  unfold hostWriteReg
  split
  next imm => rw [hostImm32_of_lt imm.1 imm.2, ofNat_toNat_eq_ofInt imm.1]
  next noImm => rw [hostImm32_of_not noImm]

/-- WR reaches its register whatever its value is. -/
theorem hostWriteReg_next (r : Reg) (v : Int) (s : State) : ∃ t, hostWriteReg r v s = .next t := by
  rw [hostWriteReg_eq]
  split
  · rw [busWrite_offset]
    exact writeReg_next _ _ _
  · rw [show s.cfg = (s.drew 1).cfg from rfl, busWrite_offset]
    exact writeReg_next _ _ _

theorem hostStore_eq {a : Int} (ha : 0 ≤ a) (v : Int) (s : State) :
    hostStore a v s =
      if 0 ≤ v ∧ v < 256 then hostStoreByte a.toNat (BitVec.ofInt 8 v) s
      else hostStoreByte a.toNat (Config.freeByte s.draws) (s.drew 1) := by
  unfold hostStore
  rw [if_neg (Int.not_lt.2 ha)]
  split
  next imm => rw [hostImm8_of_lt imm.1 imm.2, ofNat_toNat_eq_ofInt imm.1]
  next noImm => rw [hostImm8_of_not noImm]

/-- SB at a byte of memory goes on whatever its value is. -/
theorem hostStore_next {a : Int} {s : State} (ha : 0 ≤ a) (inside : a < s.cfg.memBytes) (v : Int) :
    ∃ t, hostStore a v s = .next t := by
  have inside' : a.toNat < s.cfg.memBytes := by omega
  rw [hostStore_eq ha]
  split
  · exact hostStoreByte_next _ inside'
  · exact hostStoreByte_next (s := s.drew 1) _ inside'

/-- SB at an address that names no byte stops (R50). -/
theorem hostStore_noSuchByte {a : Int} {s : State} (outside : ¬(0 ≤ a ∧ a < s.cfg.memBytes)) (v : Int) :
    hostStore a v s = .fault .noSuchByte := by
  by_cases ha : 0 ≤ a
  · have outside' : s.cfg.memBytes ≤ a.toNat := by omega
    rw [hostStore_eq ha]
    split
    · exact hostStoreByte_noSuchByte _ outside'
    · exact hostStoreByte_noSuchByte (s := s.drew 1) _ outside'
  · exact if_pos (Int.not_le.1 ha)

/-- Settles O56: what WR and SB are, and which of them go on. -/
theorem hostWritesOfAnyValueGoOn : Obligations.HostWritesOfAnyValueGoOn :=
  fun s r _ v => ⟨hostWriteReg_next r v s, hostWriteReg_eq r v s,
    fun ⟨ha, inside⟩ => ⟨hostStore_next ha inside v, hostStore_eq ha v s⟩, fun outside => hostStore_noSuchByte outside v⟩

end Sys2Proof.Machine
end

section
/-! Which steps stop: a host access to no byte of memory, or to no byte of the register window (R50, R186). -/

namespace Sys2Proof.Machine

/-- The line is about to read a byte, or is an SB whose values are there, at an address that names no byte (R50). -/
def AccessesNoByte (s : State) (op : HostOp) : Prop :=
  ∃ a : Int, (a < 0 ∨ (s.cfg.memBytes : Int) ≤ a) ∧
    (op.values s.hostVars s.hostReads = .needs (HostRead.byte a) ∨
      ∃ x y v rest, op = HostOp.sb x y ∧ op.values s.hostVars s.hostReads = .done (a, v) rest)

/-- The line is a bus access none of whose bytes lies in the register window (R186). -/
def AccessesNoRegister (s : State) (op : HostOp) : Prop :=
  ∃ addr width, (op = HostOp.busRead addr width ∨ ∃ d, op = HostOp.busWrite addr width d) ∧
    ∀ b, addr ≤ b → b < addr + width → b < s.cfg.regBase ∨ s.cfg.regBase + 32 ≤ b

/-- `o`, the outcome of the line `op` in `s`, is a next state but for the two accesses that stop a step. -/
def StopsOnlyOutside (s : State) (op : HostOp) (o : Host.Outcome State Fault Refusal) : Prop :=
  (∃ t, o = .next t) ∨ (o = .fault .noSuchByte ∧ AccessesNoByte s op) ∨
    (o = .refused .notThisBlock ∧ AccessesNoRegister s op)

/-! ### The accesses -/

theorem outside_of_touchesWindow {c : Config} {addr width : Nat} (h : ¬touchesWindow c addr width = true) (b : Nat)
    (lo : addr ≤ b) (hi : b < addr + width) : b < c.regBase ∨ c.regBase + 32 ≤ b := by
  by_contra inside
  exact h ((touchesWindow_iff _ _ _).2 ⟨b, by omega, by omega, lo, hi⟩)

/-- A bus write stops only when it touches no byte of the window (R186). -/
theorem busWrite_total (addr width : Nat) (d : Word) (s : State) :
    (∃ t, busWrite addr width d s = .next t) ∨
      (busWrite addr width d s = .refused .notThisBlock ∧ ¬touchesWindow s.cfg addr width = true) := by
  unfold busWrite
  split
  · exact .inl (writeReg_next _ _ _)
  · split
    · exact .inl ⟨_, rfl⟩
    next far => exact .inr ⟨rfl, far⟩

/-- A bus read stops only when it touches no byte of the window (R186). -/
theorem busRead_total (addr width : Nat) (s : State) :
    (∃ t, busRead addr width s = .next t) ∨
      (busRead addr width s = .refused .notThisBlock ∧ ¬touchesWindow s.cfg addr width = true) := by
  unfold busRead
  split
  · exact .inl ⟨_, rfl⟩
  · split
    · exact .inl ⟨_, rfl⟩
    next far => exact .inr ⟨rfl, far⟩

/-- A read of an expression stops only at an address that names no byte (R50). -/
theorem hostRead_total (a : HostRead) (s : State) :
    (∃ r, hostRead a s = .next r) ∨
      (hostRead a s = .fault .noSuchByte ∧ ∃ b, a = .byte b ∧ (b < 0 ∨ (s.cfg.memBytes : Int) ≤ b)) := by
  cases a with
  | reg r => exact .inl ⟨_, rfl⟩
  | byte b =>
    by_cases negative : b < 0
    · exact .inr ⟨if_pos negative, b, rfl, .inl negative⟩
    unfold hostRead
    simp only [if_neg negative]
    by_cases inside : b.toNat < s.cfg.memBytes
    · obtain ⟨r, hr⟩ := readByte_next inside
      rw [hr]
      exact .inl ⟨_, rfl⟩
    · rw [readByte_noSuchByte (Nat.not_lt.1 inside)]
      exact .inr ⟨rfl, b, rfl, .inr (by omega)⟩

/-! ### The host's line -/

/-- A line that makes no access of its own always takes effect. -/
theorem hostFinish_next {op : HostOp} (quiet : op.accesses = false) (m n : Int) (k : Nat) (s : State) :
    ∃ t, hostFinish op m n k s = .next t := by
  cases op with
  | wr | sb | busWrite | busRead => cases quiet
  | rd | lb | mov | add | blt | bne | assert => exact ⟨_, rfl⟩

theorem hostAfterRead_next {op : HostOp} (quiet : op.accesses = false) (s : State) :
    ∃ t, hostAfterRead op s = .next t := by
  unfold hostAfterRead
  split
  · exact hostFinish_next quiet _ _ _ _
  · exact ⟨_, rfl⟩

/-- The effect of a line whose values are there. -/
theorem hostFinish_stopsOnlyOutside {op : HostOp} {s : State} {v : Int × Int} {rest : List Int}
    (h : op.values s.hostVars s.hostReads = .done v rest) :
    StopsOnlyOutside s op (hostFinish op v.1 v.2 s.hostPc s.endLine) := by
  cases op with
  | wr r e => exact .inl (hostWriteReg_next r v.1 s.endLine)
  | sb x y =>
    by_cases inside : 0 ≤ v.1 ∧ v.1 < s.endLine.cfg.memBytes
    · exact .inl (hostStore_next inside.1 inside.2 v.2)
    · refine .inr (.inl ⟨hostStore_noSuchByte inside v.2, v.1, ?_, .inr ⟨x, y, v.2, rest, rfl, h⟩⟩)
      rw [endLine_cfg] at inside
      omega
  | busWrite addr width d =>
    obtain goesOn | ⟨refused, far⟩ := busWrite_total addr width d s.endLine
    · exact .inl goesOn
    · exact .inr (.inr ⟨refused, addr, width, .inr ⟨d, rfl⟩, outside_of_touchesWindow far⟩)
  | busRead addr width =>
    obtain goesOn | ⟨refused, far⟩ := busRead_total addr width s.endLine
    · exact .inl goesOn
    · exact .inr (.inr ⟨refused, addr, width, .inl rfl, outside_of_touchesWindow far⟩)
  | rd | lb | mov | add | blt | bne | assert => exact .inl (hostFinish_next rfl _ _ _ _)

/-- A step of a line: its effect, or its next read, after which a line without an access of its own goes on. -/
theorem hostLine_stopsOnlyOutside (op : HostOp) (s : State) : StopsOnlyOutside s op (hostLine op s) := by
  cases h : op.values s.hostVars s.hostReads with
  | done v rest =>
    rw [hostLine_of_done h]
    exact hostFinish_stopsOnlyOutside h
  | needs a =>
    rw [hostLine_of_needs h]
    obtain ⟨r, hr⟩ | ⟨stops, b, rfl, outside⟩ := hostRead_total a s
    · rw [hr]
      left
      cases accesses : op.accesses with
      | true => exact ⟨_, rfl⟩
      | false => exact hostAfterRead_next accesses _
    · rw [stops]
      exact .inr (.inl ⟨rfl, b, outside, .inl h⟩)

/-- The host's step goes on, or is that of a line that stops. -/
theorem hostStep_total (s : State) :
    (∃ t, hostStep s = .next t) ∨ ∃ l, s.hostProg[s.hostPc]? = some l ∧ StopsOnlyOutside s l.op (hostStep s) := by
  cases stopped : s.hostFailed with
  | true => exact .inl ⟨s, if_pos stopped⟩
  | false =>
    cases line : s.hostProg[s.hostPc]? with
    | none =>
      refine .inl ⟨s, ?_⟩
      unfold hostStep
      rw [stopped, line]
      rfl
    | some l =>
      refine .inr ⟨l, rfl, ?_⟩
      rw [hostStep_eq_hostLine stopped line]
      exact hostLine_stopsOnlyOutside l.op s

/-- The step of an idle block changes nothing (R193). -/
theorem blockStep_of_idle {s : State} (idle : s.pending = none) : blockStep s = .next s := by
  unfold blockStep
  rw [idle]

/-- Under the invariant the block's step never stops: it is idle, or its command completes. -/
theorem State.Inv.blockStep_goesOn {s : State} (inv : s.Inv) : ∃ t, blockStep s = .next t := by
  by_cases idle : s.pending = none
  · exact ⟨s, blockStep_of_idle idle⟩
  · obtain ⟨t, completes, -⟩ := inv.blockStep_next idle
    exact ⟨t, completes⟩

/-- Settles O57: the block completes under the invariant, a reset never stops, and the host's line stops only at one
of the two accesses. -/
theorem stepStopsOnlyAtAHostAccessOutsideTheBlock : Obligations.StepStopsOnlyAtAHostAccessOutsideTheBlock := by
  intro s inv
  cases mover : s.mover with
  | reset => exact .inl ⟨_, step_of_reset mover⟩
  | block =>
    rw [step_of_block mover]
    exact .inl (State.Inv.blockStep_goesOn (s := { s with schedule := s.schedule.tail }) { inv with })
  | host =>
    rw [step_of_host mover]
    obtain goesOn | ⟨l, line, goesOn | ⟨stops, a, outside, access⟩ | ⟨stops, addr, width, access, outside⟩⟩ :=
      hostStep_total { s with schedule := s.schedule.tail }
    · exact .inl goesOn
    · exact .inl goesOn
    · exact .inr (.inl ⟨rfl, stops, l, a, line, outside, access⟩)
    · exact .inr (.inr ⟨rfl, stops, l, addr, width, line, access, outside⟩)

end Sys2Proof.Machine
end

section
/-! The decoder and the encoder agree (R70, R72, R78): each reads the fields that the other writes. -/

namespace Sys2Proof

/-- A word whose RSV is 0 is CMD32 of its own VAL and OP (R70). -/
theorem cmd32_fields {w : Word} (rsv : rsvField w = 0) : cmd32 (valField w) (opField w) = w := by
  have split : (rsvField w ++ BitVec.ofBool (valField w)) ++ opField w = w := by
    ext j hj
    simp only [rsvField, valField, opField, BitVec.getElem_append, BitVec.getElem_extractLsb', BitVec.getElem_ofBool]
    split
    · rw [Nat.zero_add, BitVec.getLsbD_eq_getElem hj]
    · split
      · obtain rfl : j = 4 := by omega
        rfl
      · rw [show 5 + (j - 4 - 1) = j by omega, BitVec.getLsbD_eq_getElem hj]
  rwa [rsv] at split

/-- The opcode map of R72 names the commands whose word has VAL = 0. -/
theorem encode_of_decodeOp {op : BitVec 4} {i : Instr} (h : decodeOp op = .ok i) : encode i = cmd32 false op := by
  unfold decodeOp at h
  split_ifs at h <;> cases h <;> subst op <;> rfl

/-- A legal word is the word of the command it decodes to. -/
theorem encode_of_decode {w : Word} {i : Instr} (h : decode w = .ok i) : encode i = w := by
  unfold decode at h
  split_ifs at h with rsv setBit stray
  all_goals rw [← cmd32_fields (not_not.1 rsv)]
  · cases h
    rw [setBit]
    rfl
  · rw [Bool.eq_false_of_not_eq_true stray]
    exact encode_of_decodeOp h

/-- The word of every command decodes to it, for SET_BIT with either VAL. -/
theorem decode_encode (i : Instr) : decode (encode i) = .ok i := by
  cases i with
  | setBit v => cases v <;> decide
  | encode | decode | correct | getBit | flipBit => decide

/-- Settles O1: a legal word is the word of its command, and that word decodes to it. -/
theorem wordDecodesExactlyToTheCommandItEncodes : Obligations.WordDecodesExactlyToTheCommandItEncodes :=
  fun _ i => ⟨encode_of_decode, fun word => word ▸ decode_encode i⟩

/-- Settles O3: the seven numerals are the words of their commands; each illegal word fails one test of R78. -/
theorem specWordsDecodeToTheirCommands : Obligations.SpecWordsDecodeToTheirCommands :=
  ⟨decode_encode .encode, decode_encode .decode, decode_encode .correct, decode_encode .getBit,
    decode_encode (.setBit false), decode_encode (.setBit true), decode_encode .flipBit,
    by decide, by decide, by decide, by decide, by decide⟩

end Sys2Proof
end

section
/-! WAIT (R82): its first line polls STATUS, its second branches back to the first while the BUSY bit polled is 1. -/

namespace Sys2Proof.Machine

/-! ### The branch target `1b` (R84) -/

theorem lastLabel_concat (l k : Nat) (best : Option Nat) (xs : List HostLine) (x : HostLine) :
    lastLabel l k best (xs ++ [x]) = if l ∈ x.labels then some (k + xs.length) else lastLabel l k best xs := by
  induction xs generalizing k best with
  | nil => rfl
  | cons y ys ih => simp only [List.cons_append, lastLabel, ih, List.length_cons, Nat.add_right_comm, ← Nat.add_assoc]

/-- The last label among the lines up to the one at `j` is on that line, or among those before it. -/
theorem lastLabel_take_succ (l : Nat) {prog : List HostLine} {j : Nat} {x : HostLine} (line : prog[j]? = some x) :
    lastLabel l 0 none (prog.take (j + 1)) =
      if l ∈ x.labels then some j else lastLabel l 0 none (prog.take j) := by
  obtain ⟨inside, -⟩ := List.getElem?_eq_some_iff.1 line
  rw [List.take_add_one, line, Option.toList_some, lastLabel_concat, List.length_take_of_le inside.le, Nat.zero_add]

/-- A branch back to a label of the line before it goes to that line, unless its own line has the label too. -/
theorem resolve_back_previous {l j : Nat} {prog : List HostLine} {x y : HostLine} (labelled : prog[j]? = some x)
    (hx : l ∈ x.labels) (branch : prog[j + 1]? = some y) (hy : l ∉ y.labels) :
    (Target.back l).resolve prog (j + 1) = some j := by
  simp only [Target.resolve]
  rw [lastLabel_take_succ l branch, if_neg hy, lastLabel_take_succ l labelled, if_pos hx]

/-- A taken branch goes to the line its target names. -/
theorem hostBranch_of_resolve {taken : Bool} {t : Target} {j k : Nat} {s : State}
    (target : t.resolve s.hostProg j = some k) :
    hostBranch taken t j s = { s with hostPc := if taken then k else s.hostPc } := by
  unfold hostBranch
  rw [target]
  cases taken <;> rfl

/-! ### The two lines -/

/-- The end of a line that has kept no reads is a move of the host to the next one. -/
theorem endLine_of_fresh {s : State} (fresh : s.hostReads = []) : s.endLine = { s with hostPc := s.hostPc + 1 } := by
  unfold State.endLine
  rw [← fresh]

/-- The state after WAIT's first line: STATUS has been read into `$s`. -/
def State.waitPolled (s : State) : State :=
  { s with hostPc := s.hostPc + 1, response := some (.word s.statusWord) }.setVar waitVar s.statusWord.toNat

/-- The first line of WAIT makes its one read and ends. -/
theorem hostLine_waitPoll {s : State} (fresh : s.hostReads = []) :
    hostLine (.mov waitVar (.rd .status)) s = .next s.waitPolled := by
  have asks : (HostOp.mov waitVar (.rd .status)).values s.hostVars s.hostReads = .needs (.reg .status) := by
    rw [fresh]
    rfl
  have answered : hostLine (.mov waitVar (.rd .status)) s =
      .next ((s.respond (.word s.statusWord)).endLine.setVar waitVar s.statusWord.toNat) := by
    rw [hostLine_of_needs asks]
    simp only [hostRead, readReg, andThen, HostOp.accesses, hostAfterRead, noteRead_hostReads, respond_hostReads, fresh]
    rfl
  rw [answered, endLine_of_fresh (s := s.respond _) fresh]
  rfl

/-- Bit 0 of a polled STATUS word is BUSY (R25). -/
theorem land_statusWord_one (s : State) : Int.land s.statusWord.toNat 1 = s.busy.toNat := by
  have bit : s.statusWord.toNat &&& 1 = s.busy.toNat := by
    rw [Nat.and_one_is_mod, statusWord_toNat]
    have := s.busy.toNat_lt
    omega
  exact congrArg Int.ofNat bit

/-- The second line of WAIT goes to its target if the block is busy, as the word polled says it is, else on. -/
theorem hostLine_waitBranch {s : State} {k : Nat} (fresh : s.hostReads = [])
    (polled : lookupVar s.hostVars waitVar = s.statusWord.toNat)
    (target : (Target.back 1).resolve s.hostProg s.hostPc = some k) :
    hostLine (.bne (.bin .land (.var waitVar) (.lit 1)) (.lit 0) (.back 1)) s =
      .next { s with hostPc := if s.busy then k else s.hostPc + 1 } := by
  have compares : (HostOp.bne (.bin .land (.var waitVar) (.lit 1)) (.lit 0) (.back 1)).values s.hostVars s.hostReads =
      .done (s.busy.toNat, 0) s.hostReads := by
    rw [← land_statusWord_one, ← polled]
    rfl
  have taken : decide ((s.busy.toNat : Int) ≠ 0) = s.busy := by cases s.busy <;> rfl
  rw [hostLine_of_done compares]
  simp only [hostFinish, taken]
  rw [hostBranch_of_resolve (s := s.endLine) target, endLine_of_fresh fresh]

/-! ### The two steps -/

/-- A step of a host whose turn it is, at a line of its program. -/
theorem step_hostLine {s : State} {turns : List Agent} {l : HostLine} (turn : s.schedule = Agent.host :: turns)
    (running : s.hostFailed = false) (line : s.hostProg[s.hostPc]? = some l) :
    step s = hostLine l.op { s with schedule := turns } := by
  have host : s.mover = Agent.host := by rw [State.mover, turn]; rfl
  rw [step_of_host host, turn]
  exact hostStep_eq_hostLine (s := { s with schedule := turns }) running line

/-- A step that goes on is the first of a run. -/
theorem run_of_step {s t : State} (h : step s = .next t) (k : Nat) :
    Host.Core.run Sys2Proof.core (k + 1) s = Host.Core.run Sys2Proof.core k t := by
  have goesOn : Sys2Proof.core.step s = .next t := h
  simp only [Host.Core.run, goesOn]

/-- Settles O55: the first step polls STATUS, the second goes back to the first line if the word polled had BUSY = 1. -/
theorem waitEndsAtTheFirstIdleStatusRead : Obligations.WaitEndsAtTheFirstIdleStatusRead := by
  intro s rest turns running fresh first second
  have poll : step s = .next { s with schedule := Agent.host :: rest }.waitPolled :=
    (step_hostLine turns running first).trans (hostLine_waitPoll (s := { s with schedule := Agent.host :: rest }) fresh)
  have target : (Target.back 1).resolve s.hostProg (s.hostPc + 1) = some s.hostPc :=
    resolve_back_previous first (by decide) second (by decide)
  have branch := (step_hostLine (s := { s with schedule := Agent.host :: rest }.waitPolled) rfl running second).trans
    (hostLine_waitBranch (s := { s with schedule := rest }.waitPolled) fresh rfl target)
  exact ⟨_, (run_of_step poll 1).trans (run_of_step branch 0), rfl, rfl, rfl⟩

end Sys2Proof.Machine
end

section
/-! GET_BIT, SET_BIT and FLIP_BIT: the completion of each, the laws of R97, and the syndrome after a flip (R96). -/

namespace Sys2Proof.Machine

/-! ### The completion of a bit command -/

/-- RANGE of a bit command is the test of its one byte (R173). -/
theorem leavesMemory_iff_of_bitCommand {p : Pending} (c : Config)
    (bit : p.cmd = .getBit ∨ (∃ v, p.cmd = .setBit v) ∨ p.cmd = .flipBit) :
    p.leavesMemory c = true ↔ c.memBytes ≤ p.dst.toNat + p.cnt.toNat / 8 := by
  rw [leavesMemory_iff, rangeConditionWrittenOutPerCommand]
  obtain cmd | ⟨v, cmd⟩ | cmd := bit <;> rw [cmd]

/-- A pending bit command whose byte is in memory completes with its rule. -/
theorem exec_bitCommand {i : Instr} {s : State} {p : Pending} (hp : s.pending = some p) (hi : p.cmd = i)
    (bit : p.cmd = .getBit ∨ (∃ v, p.cmd = .setBit v) ∨ p.cmd = .flipBit)
    (inside : p.dst.toNat + p.cnt.toNat / 8 < s.cfg.memBytes) : exec i s = .next (ruleOf i p s).retire := by
  refine exec_of_pending' hp hi ?_
  rw [← Bool.not_eq_true, leavesMemory_iff_of_bitCommand s.cfg bit]
  exact inside.not_ge

/-- `BitRead` in the arithmetic of R91. -/
theorem bitRead_toNat (m : Memory) (base i : Nat) :
    (bitRead m base i).toNat = (Memory.read m (base + i / 8)).toNat / 2 ^ (i % 8) % 2 :=
  Nat.toNat_testBit _ _

/-- Settles O31: the completion is the rule of R91, and its bit is a quotient's parity. -/
theorem getBitReadsTheAddressedBit : Obligations.GetBitReadsTheAddressedBit := by
  intro s p hp hi inside
  refine ⟨_, exec_bitCommand hp hi (.inl hi) inside, rfl, ?_⟩
  rw [← bitRead_toNat]
  exact BitVec.toNat_ofBool _

/-- Settles O32: the completion is the rule of R93. -/
theorem setBitWritesTheAddressedBit : Obligations.SetBitWritesTheAddressedBit := by
  intro s p v hp hi inside
  exact ⟨_, exec_bitCommand hp hi (.inr (.inl ⟨v, hi⟩)) inside, rfl, fun a k hk => bit_bitWrite s.mem _ _ v a k hk⟩

/-- Settles O33: the completion is the rule of R95. -/
theorem flipBitInvertsTheAddressedBit : Obligations.FlipBitInvertsTheAddressedBit := by
  intro s p hp hi inside
  exact ⟨_, exec_bitCommand hp hi (.inr (.inr hi)) inside, rfl, fun a k hk => bit_bitFlip s.mem _ _ a k hk⟩

/-! ### The laws of R97 -/

/-- The byte of a flipped bit. -/
theorem read_bitFlip_same (m : Memory) (base i : Nat) :
    Memory.read (bitFlip m base i) (base + i / 8) = Memory.read m (base + i / 8) ^^^ bitAt true (i % 8) :=
  read_write_same _ _ _

/-- A second flip of the bit, in a memory with the byte that the first one left, restores the byte. -/
theorem read_bitFlip_bitFlip {m m' : Memory} {base i : Nat}
    (kept : Memory.read m' (base + i / 8) = Memory.read (bitFlip m base i) (base + i / 8)) :
    Memory.read (bitFlip m' base i) (base + i / 8) = Memory.read m (base + i / 8) := by
  rw [read_bitFlip_same, kept, read_bitFlip_same, BitVec.xor_assoc, BitVec.xor_self, BitVec.xor_zero]

/-- Writing to a bit the value it has leaves every byte. -/
theorem read_bitWrite_of_held {m : Memory} {base i : Nat} {b : Bool} (held : bitRead m base i = b) (a : Nat) :
    Memory.read (bitWrite m base i b) a = Memory.read m a := by
  refine BitVec.eq_of_getLsbD_eq fun k hk => ?_
  rw [bit_bitWrite m base i b a k hk]
  split
  · next here =>
    obtain ⟨rfl, rfl⟩ := here
    exact held.symm
  · rfl

/-- Settles O34: both laws, on the memories that the completions leave. -/
theorem bitLawsOfR97 : Obligations.BitLawsOfR97 := by
  constructor
  · intro s t v u p q hp hpi first hq hqi dst cnt kept second
    obtain ⟨-, rfl⟩ := exec_completion hp hpi first
    obtain ⟨-, rfl⟩ := exec_completion hq hqi second
    have flipped : (ruleOf .flipBit q v).retire.mem = bitFlip v.mem p.dst.toNat p.cnt.toNat := by
      rw [← dst, ← cnt]
      rfl
    rw [flipped]
    exact read_bitFlip_bitFlip kept
  · intro s t v u p q b hp hpi get hq hqi dst cnt value kept write a
    obtain ⟨-, rfl⟩ := exec_completion hp hpi get
    obtain ⟨-, rfl⟩ := exec_completion hq hqi write
    have got : bitRead s.mem p.dst.toNat p.cnt.toNat = b := BitVec.ofBool_eq_iff_eq.1 value
    have held : bitRead v.mem p.dst.toNat p.cnt.toNat = b := (bitRead_congr _ _ _ _ kept).trans got
    rw [← dst, ← cnt] at held
    exact read_bitWrite_of_held held a

/-! ### The syndrome after a flip -/

/-- A flip changes the XOR of the positions of a buffer's set bits by the position of the bit (R96). -/
theorem xorPositions_bitFlip (m : Memory) (base : Nat) {i c : Nat} (hi : i < c) :
    xorPositions (bitRead (bitFlip m base i) base) c = xorPositions (bitRead m base) c ^^^ (i + 1) := by
  have flipped : ∀ j, bitRead (bitFlip m base i) base j = (bitRead m base j ^^ decide (j = i)) := by
    intro j
    rw [bitRead_bitFlip]
    by_cases h : j = i <;> simp [h]
  calc xorPositions (bitRead (bitFlip m base i) base) c
      = xorPositions (fun j => bitRead m base j ^^ decide (j = i)) c := xorPositions_congr fun j _ => flipped j
    _ = xorPositions (bitRead m base) c ^^^ xorPositions (fun j => decide (j = i)) c := xorPositions_xor _ _ _
    _ = xorPositions (bitRead m base) c ^^^ (i + 1) := by
      rw [xorPositions_single hi fun z _ => decide_eq_true_iff]

/-- Settles O35: the completion of FLIP_BIT leaves the flipped buffer. -/
theorem flipChangesTheSyndromeByItsPosition : Obligations.FlipChangesTheSyndromeByItsPosition := by
  intro s t p c hp hi h below
  obtain ⟨-, rfl⟩ := exec_completion hp hi h
  exact xorPositions_bitFlip s.mem p.dst.toNat below

end Sys2Proof.Machine
end

section
/-! ENCODE: the least length with n data positions, the bound of COUNT_OVERFLOW, and the codeword as a function of
the message (R111 to R122); and the codeword commands with COUNT = 0 (R121, R139, R162). -/

namespace Sys2Proof.Machine

open Sys2Proof.Claims

/-! ### The encoded length (R13, R111, R113) -/

/-- `Lenc` and `nData` form a Galois connection: a codeword of `n` bits fits in `[1, m]` exactly when `[1, m]` has `n`
data positions. -/
theorem lenc_le_iff (n m : Nat) : lenc n ≤ m ↔ n ≤ nData m := by
  constructor
  · intro h
    calc n = nData (lenc n) := (nData_lenc n).symm
      _ ≤ nData m := nData_mono h
  · intro h
    by_contra short
    exact (nData_lt_of_lt_lenc (Nat.not_le.1 short)).not_ge h

/-- Settles O41: the count of data positions is `nData`, and `parityCount` is the least `r` of R14. -/
theorem encodedLengthIsTheLeastWithThatManyDataPositions :
    Obligations.EncodedLengthIsTheLeastWithThatManyDataPositions := by
  intro n
  have counted (c : Nat) : countBelow (fun i => dataPos (i + 1)) c = nData c :=
    (eq_countBelow nData_zero nData_succ c).symm
  refine ⟨(counted _).trans (nData_lenc n), fun l shorter => ?_, parityCount n, rfl, parityCount_spec n⟩
  rw [counted]
  exact (nData_lt_of_lt_lenc shorter).ne

theorem nPar_two_pow_sub_one (w : Nat) : nPar (2 ^ w - 1) = w := by
  refine eq_of_forall_lt_iff fun k => ?_
  have pos := Nat.two_pow_pos w
  calc k < nPar (2 ^ w - 1) ↔ 2 ^ k ≤ 2 ^ w - 1 := lt_nPar_iff _ _
    _ ↔ 2 ^ k < 2 ^ w := by omega
    _ ↔ k < w := Nat.pow_lt_pow_iff_right (by decide)

theorem nData_two_pow_sub_one (w : Nat) : nData (2 ^ w - 1) = 2 ^ w - 1 - w := by
  rw [nData, nPar_two_pow_sub_one]

/-! ### The issue of ENCODE (R113, R172, R178) -/

/-- An unfaulted block records the first issue check that fails, if one does. -/
theorem issue_fault {i : Instr} {s : State} (noFault : s.fault = none) :
    (issue i s).fault = (s.operands i).issueFault s.cfg := by
  obtain ⟨fault, -⟩ | ⟨-, c, failed, e⟩ | ⟨-, passed, e⟩ := issue_cases i s
  · exact absurd noFault fault
  · rw [e, failed]
  · rw [e, passed, latch_fault, noFault]

/-- COUNT_OVERFLOW is the first of the checks: no other one hides it. -/
theorem issueFault_eq_countOverflow_iff (c : Config) (p : Pending) :
    p.issueFault c = some .countOverflow ↔ p.overflows c = true := by
  unfold Pending.issueFault
  split
  · next exceeds => simp [exceeds]
  · next fits => simp only [fits]; split_ifs <;> simp

/-- Settles O14: the write issues ENCODE, whose first check is the bound, and `Lenc(n) ≤ m` is `n ≤ nData(m)`. -/
theorem countOverflowBound : Obligations.CountOverflowBound := by
  intro s _ noFault idle
  have write : cmdWrite (encode .encode) s = .next (issue .encode s) := by
    rw [cmdWrite_of_legal noFault idle (decode_encode .encode), exec_of_idle idle]
  refine ⟨?_, ?_, ?_, nData_two_pow_sub_one _, lenc_le_iff⟩
  · rw [write]
    simp only [Host.Outcome.next.injEq, exists_eq_left', issue_fault noFault, issueFault_eq_countOverflow_iff]
    exact decide_eq_true_iff
  · rw [← Nat.not_le, lenc_le_iff, nData_two_pow_sub_one, Nat.not_le]
  · intro width
    rw [width]
    rfl

/-! ### The completion of a command -/

/-- A command that passed its checks completes with its rule. -/
theorem exec_of_inMemory {s : State} {p : Pending} {i : Instr} (hp : s.pending = some p) (hi : p.cmd = i)
    (inside : InMemory s p) : exec i s = .next (ruleOf i p s).retire :=
  exec_of_pending' hp hi ((leavesMemory_eq_false_iff s.cfg p).2 inside)

/-- Settles O28: under the invariant the completion is the command's rule, which writes no fault. -/
theorem pendingCommandCompletesWithoutFault : Obligations.PendingCommandCompletesWithoutFault := by
  intro s p inv hp
  refine ⟨_, exec_of_pending hp (inv.leavesMemory hp), ?_, rfl⟩
  rw [retire_ruleOf_frame]

/-- The rule of ENCODE writes the encoded length to RES_COUNT (R119). -/
theorem ruleOf_encode_resCount (p : Pending) (s : State) :
    (ruleOf .encode p s).resCount = BitVec.ofNat 32 (lenc p.cnt.toNat) :=
  congrArg (BitVec.ofNat 32) (encodeRun_bits _ _ _ _)

/-- Settles O36: the completion is the rule of R119, and a length that fits in CNT_W bits fits in RES_COUNT. -/
theorem encodeReturnsTheEncodedLength : Obligations.EncodeReturnsTheEncodedLength := by
  intro s p hp hi inside fits narrow
  refine ⟨_, exec_of_inMemory hp hi inside, rfl, ?_⟩
  have word : lenc p.cnt.toNat < 2 ^ 32 := by
    have := Nat.pow_le_pow_right (show 0 < 2 by decide) narrow
    have := Nat.two_pow_pos s.cfg.cntW
    omega
  rw [retire_resCount, ruleOf_encode_resCount, BitVec.toNat_ofNat, Nat.mod_eq_of_lt word]

/-! ### The codeword of a message (R115 to R117) -/

/-- The accumulator `S` that ENCODE reaches on the message `f`: the XOR of the data positions that hold a 1 (R116). -/
def messageXor (f : Nat → Bool) (n : Nat) : Nat := xorPositions (fun q => dataPos (q + 1) && f (nData q)) (lenc n)

/-- Bit `y` of the codeword of the `n`-bit message `f`: a message bit at a data position (R115), and at the parity
position `2^k` bit `k` of the accumulator (R117). -/
def codewordBit (f : Nat → Bool) (n y : Nat) : Bool :=
  if dataPos (y + 1) then f (nData y) else (messageXor f n).testBit (Nat.log2 (y + 1))

theorem codewordBit_of_dataPos {f : Nat → Bool} {n y : Nat} (data : dataPos (y + 1) = true) :
    codewordBit f n y = f (nData y) := if_pos data

theorem codewordBit_two_pow (f : Nat → Bool) (n k : Nat) :
    codewordBit f n (2 ^ k - 1) = (messageXor f n).testBit k := by
  have position : 2 ^ k - 1 + 1 = 2 ^ k := Nat.sub_add_cancel Nat.one_le_two_pow
  have parity : dataPos (2 ^ k) = false := by simp [dataPos, isPow2_two_pow]
  simp [codewordBit, position, parity, Nat.log2_two_pow]

/-- ENCODE leaves the codeword of its input bits. -/
theorem bitRead_encodeRun {m : Memory} {src dst n y : Nat} (apart : Apart src n dst (lenc n)) (hy : y < lenc n) :
    bitRead (encodeRun m src dst n).mem dst y = codewordBit (bitRead m src) n y := by
  cases position : dataPos (y + 1) with
  | true => rw [encodeRun_data m src dst n apart hy position, codewordBit_of_dataPos position]
  | false =>
    obtain ⟨k, hk⟩ := exists_two_pow_of_not_dataPos position
    obtain rfl : y = 2 ^ k - 1 := by omega
    rw [encodeRun_parity m src dst n (by omega), encodeData_synd m src dst n apart, codewordBit_two_pow]
    rfl

/-- The codeword's own data positions give the accumulator back. -/
theorem xorPositions_data_codewordBit (f : Nat → Bool) (n : Nat) :
    xorPositions (fun y => dataPos (y + 1) && codewordBit f n y) (lenc n) = messageXor f n := by
  refine xorPositions_congr fun y _ => ?_
  cases position : dataPos (y + 1) with
  | true => rw [codewordBit_of_dataPos position]
  | false => rfl

/-- The accumulator has no more bits than the codeword has parity positions. -/
theorem messageXor_lt (f : Nat → Bool) (n : Nat) : messageXor f n < 2 ^ nPar (lenc n) :=
  xorPositions_lt (Nat.not_le.1 ((lt_nPar_iff _ _).not.1 (lt_irrefl _)))

/-- The parity positions hold the accumulator, so together with the data positions they sum to 0 (R122). -/
theorem xorPositions_codewordBit (f : Nat → Bool) (n : Nat) : xorPositions (codewordBit f n) (lenc n) = 0 := by
  have split (y : Nat) : codewordBit f n y = ((dataPos (y + 1) && f (nData y)) ^^
      (isPow2 (y + 1) && (messageXor f n).testBit (Nat.log2 (y + 1)))) := by
    unfold codewordBit
    rw [dataPos_succ]
    cases isPow2 (y + 1) <;> simp
  calc xorPositions (codewordBit f n) (lenc n)
      = messageXor f n ^^^ messageXor f n % 2 ^ nPar (lenc n) := by
        rw [funext split, xorPositions_xor, xorPositions_parity]
        rfl
    _ = 0 := by rw [Nat.mod_eq_of_lt (messageXor_lt f n), Nat.xor_self]

/-- A codeword depends on the first `n` message bits only. -/
theorem codewordBit_congr {f g : Nat → Bool} {n y : Nat} (same : ∀ x, x < n → f x = g x) (hy : y < lenc n) :
    codewordBit f n y = codewordBit g n y := by
  have acc : messageXor f n = messageXor g n :=
    xorPositions_congr fun q hq => by rw [same _ (nData_lt_of_lt_lenc hq)]
  rw [codewordBit, codewordBit, acc, same _ (nData_lt_of_lt_lenc hy)]

/-! ### The completion of ENCODE -/

section
variable {s t : State} {p : Pending}

/-- What an ENCODE that passed its checks leaves at its output. -/
theorem bitRead_of_encode (ready : Ready s p .encode) (h : exec .encode s = .next t) {y : Nat}
    (hy : y < lenc p.cnt.toNat) :
    bitRead t.mem p.dst.toNat y = codewordBit (bitRead s.mem p.src.toNat) p.cnt.toNat y := by
  obtain ⟨hp, hi, -, noOverlap⟩ := ready
  obtain ⟨-, rfl⟩ := exec_completion hp hi h
  have apart := Pending.apart ((overlaps_eq_false_iff p).2 noOverlap)
  rw [hi] at apart
  exact bitRead_encodeRun apart hy

theorem resCount_of_encode (ready : Ready s p .encode) (h : exec .encode s = .next t) :
    t.resCount = BitVec.ofNat 32 (lenc p.cnt.toNat) := by
  obtain ⟨hp, hi, -, -⟩ := ready
  obtain ⟨-, rfl⟩ := exec_completion hp hi h
  exact ruleOf_encode_resCount p s

/-- A completion without OVERLAP leaves every input bit. -/
theorem bitRead_input_of_ready {i : Instr} (ready : Ready s p i) (h : exec i s = .next t) {x : Nat}
    (hx : x < inBits i p.cnt.toNat) : bitRead t.mem p.src.toNat x = bitRead s.mem p.src.toNat x := by
  obtain ⟨hp, rfl, -, noOverlap⟩ := ready
  obtain ⟨-, rfl⟩ := exec_completion hp rfl h
  have input : p.inBytes.has (p.src.toNat + x / 8) = true :=
    (ByteRange.has_iff _ _).2 ⟨Nat.le_add_right _ _, Nat.add_lt_add_left (div8_lt_nbytes hx) _⟩
  exact bitRead_congr _ _ _ _ (read_ruleOf_other p s (noOverlap _ input))

end

/-- Settles O37: the data position of index `j` lies in the codeword, and the codeword holds the message bit there. -/
theorem encodePlacesTheDataBits : Obligations.EncodePlacesTheDataBits := by
  intro s t p ready h j q hj data slot
  obtain ⟨y, rfl⟩ : ∃ y, q = y + 1 := Nat.exists_eq_succ_of_ne_zero (by rintro rfl; cases slot)
  have index : nData y = j := by rw [nData_succ_of_data data] at slot; omega
  have inside : y < lenc p.cnt.toNat := by
    rw [← Nat.not_le, lenc_le_iff, index]
    exact hj.not_ge
  have input := bitRead_input_of_ready ready h hj
  refine ⟨?_, input⟩
  rw [Nat.add_sub_cancel, bitRead_of_encode ready h inside, codewordBit_of_dataPos data, index, input]

/-- Settles O38: the output is the codeword, whose data positions give its accumulator. -/
theorem encodeStoresTheAccumulatorInTheParityBits : Obligations.EncodeStoresTheAccumulatorInTheParityBits := by
  intro s t p ready h k hk
  have inside : 2 ^ k - 1 < lenc p.cnt.toNat := by
    have := Nat.two_pow_pos k
    omega
  rw [bitRead_of_encode ready h inside, codewordBit_two_pow,
    xorPositions_congr fun y hy => by rw [bitRead_of_encode ready h hy], xorPositions_data_codewordBit]

/-- Settles O39: the output is the codeword, whose positions sum to 0. -/
theorem codewordHasZeroSyndrome : Obligations.CodewordHasZeroSyndrome := by
  intro s t p ready h
  rw [xorPositions_congr fun y hy => bitRead_of_encode ready h hy, xorPositions_codewordBit]

/-- Settles O40: both outputs are the codeword of the same message. -/
theorem encodeDependsOnlyOnItsInputBits : Obligations.EncodeDependsOnlyOnItsInputBits := by
  intro s s' t t' p p' ready ready' cnt same h h'
  have bits' {y : Nat} := bitRead_of_encode ready' h' (y := y)
  have count' := resCount_of_encode ready' h'
  rw [cnt] at bits' count'
  refine ⟨count'.trans (resCount_of_encode ready h).symm, fun y hy => ?_⟩
  rw [bits' hy, bitRead_of_encode ready h hy, codewordBit_congr same hy]

/-! ### Zero length (R121, R139, R162) -/

theorem ByteRange.has_of_len_zero {r : ByteRange} (empty : r.len = 0) (a : Nat) : r.has a = false := by
  rw [← Bool.not_eq_true, ByteRange.has_iff]
  omega

/-- A codeword command with COUNT = 0 touches no byte: both its ranges are empty (R60). -/
theorem touches_of_cnt_zero {p : Pending} (codeword : p.cmd = .encode ∨ p.cmd = .decode ∨ p.cmd = .correct)
    (cnt : p.cnt = 0) (a : Nat) : p.touches a = false := by
  have input : p.inBytes.len = 0 := by
    unfold Pending.inBytes inBytes
    obtain cmd | cmd | cmd := codeword <;> rw [cmd, cnt] <;> rfl
  have output : p.outBytes.len = 0 := by
    unfold Pending.outBytes outBytes
    obtain cmd | cmd | cmd := codeword <;> rw [cmd, cnt] <;> rfl
  rw [Pending.touches, ByteRange.has_of_len_zero input, ByteRange.has_of_len_zero output]
  rfl

/-- A length of 0 fits in any count (R121). -/
theorem overflows_of_cnt_zero {p : Pending} (cnt : p.cnt = 0) (c : Config) : p.overflows c = false := by
  unfold Pending.overflows
  split
  · rw [cnt]
    exact decide_eq_false (Nat.not_lt_zero _)
  all_goals rfl

/-- A command whose length fits and that touches no byte passes every issue check. -/
theorem issueFault_of_untouched {c : Config} {p : Pending} (fits : p.overflows c = false)
    (untouched : ∀ a, p.touches a = false) : p.issueFault c = none := by
  refine (issueFault_none_iff c p).2
    ⟨fits, (leavesMemory_eq_false_iff c p).2 fun a h => ?_, (overlaps_eq_false_iff p).2 fun a _ => ?_⟩
  · exact absurd h (Bool.eq_false_iff.1 (untouched a))
  · exact (Bool.or_eq_false_iff.1 (untouched a)).2

theorem encodeRun_zero (m : Memory) (src dst : Nat) : encodeRun m src dst 0 = { mem := m, synd := 0, bits := 0 } := rfl

theorem decodeRun_zero (m : Memory) (src dst : Nat) : decodeRun m src dst 0 = { mem := m, synd := 0, bits := 0 } := rfl

theorem correctRun_zero (m : Memory) (src dst : Nat) : correctRun m src dst 0 = { mem := m, synd := 0, bits := 0 } :=
  rfl

/-- Settles O47: empty ranges pass every check, and each of the three loops makes no round. -/
theorem zeroLengthCommandsAreAcceptedAndTouchNothing : Obligations.ZeroLengthCommandsAreAcceptedAndTouchNothing := by
  rintro i s p codeword rfl cnt
  have untouched := touches_of_cnt_zero codeword cnt
  refine ⟨fun c => issueFault_of_untouched (overflows_of_cnt_zero cnt c) untouched, untouched, fun hp => ?_⟩
  have inside : InMemory s p := fun a touched => absurd touched (Bool.eq_false_iff.1 (untouched a))
  refine ⟨_, exec_of_inMemory hp rfl inside, ?_⟩
  obtain cmd | cmd | cmd := codeword
  · simp [cmd, cnt, ruleOf, encodeBody, encodeRun_zero]
  · simp [cmd, cnt, ruleOf, decodeBody, decodeRun_zero]
  · simp [cmd, cnt, ruleOf, correctBody, correctRun_zero]

end Sys2Proof.Machine
end

section
/-! DECODE: its count, its syndrome and its data bits (R132 to R135), and what it makes of the codeword that an ENCODE
left, with any of its bits inverted (R140 to R142). -/

namespace Sys2Proof.Machine

open Sys2Proof.Claims

/-! ### Positions -/

/-- A count has as many bits as `[1, c]` has parity positions. -/
theorem lt_two_pow_nPar (c : Nat) : c < 2 ^ nPar c := Nat.not_le.1 ((lt_nPar_iff _ c).not.1 (lt_irrefl _))

/-- The index of the `j`-th data position, and that it lies in a codeword with more than `j` data bits. -/
theorem index_of_slot {j q c : Nat} (hj : j < nData c) (data : dataPos q = true) (slot : nData q = j + 1) :
    ∃ y, q = y + 1 ∧ nData y = j ∧ y < c := by
  obtain ⟨y, rfl⟩ : ∃ y, q = y + 1 := Nat.exists_eq_succ_of_ne_zero (by rintro rfl; cases slot)
  have index : nData y = j := Nat.succ_injective ((nData_succ_of_data data).symm.trans slot)
  refine ⟨y, rfl, index, ?_⟩
  by_contra outside
  exact (nData_mono (Nat.not_lt.1 outside)).not_gt (index ▸ hj)

/-- A set of two bits gives the XOR of their two positions. -/
theorem xorPositions_pair {f : Nat → Bool} {x y c : Nat} (hx : x < y) (hy : y < c)
    (hf : ∀ z, z < c → (f z = true ↔ z = x ∨ z = y)) : xorPositions f c = (x + 1) ^^^ (y + 1) := by
  have parts : ∀ z, z < c → f z = (decide (z = x) ^^ decide (z = y)) := by
    intro z hz
    rw [Bool.eq_iff_iff, hf z hz]
    by_cases first : z = x
    · simp [first, hx.ne]
    · simp [first]
  calc xorPositions f c
      = xorPositions (fun z => decide (z = x)) c ^^^ xorPositions (fun z => decide (z = y)) c := by
        rw [xorPositions_congr parts, xorPositions_xor]
    _ = (x + 1) ^^^ (y + 1) := by
        rw [xorPositions_single (hx.trans hy) fun z _ => decide_eq_true_iff,
          xorPositions_single hy fun z _ => decide_eq_true_iff]

/-- The positions 1, 2 and 3 cancel. -/
theorem xorPositions_first_three {f : Nat → Bool} {c : Nat} (long : 3 ≤ c)
    (hf : ∀ z, z < c → (f z = true ↔ z < 3)) : xorPositions f c = 0 := by
  have parts : ∀ z, z < c → f z = (decide (z = 0 ∨ z = 1) ^^ decide (z = 2)) := by
    intro z hz
    rw [Bool.eq_iff_iff, hf z hz]
    by_cases last : z = 2
    · simp [last]
    · simp only [last, decide_false, Bool.xor_false, decide_eq_true_iff]
      omega
  calc xorPositions f c
      = xorPositions (fun z => decide (z = 0 ∨ z = 1)) c ^^^ xorPositions (fun z => decide (z = 2)) c := by
        rw [xorPositions_congr parts, xorPositions_xor]
    _ = ((0 + 1) ^^^ (1 + 1)) ^^^ (2 + 1) := by
        rw [xorPositions_pair Nat.zero_lt_one (by omega) fun z _ => decide_eq_true_iff,
          xorPositions_single long fun z _ => decide_eq_true_iff]
    _ = 0 := rfl

/-! ### The completion of DECODE -/

section
variable {s t : State} {p : Pending}

theorem exec_of_ready {i : Instr} (ready : Ready s p i) : exec i s = .next (ruleOf i p s).retire := by
  obtain ⟨hp, hi, inside, -⟩ := ready
  exact exec_of_inMemory hp hi inside

/-- Without OVERLAP the input bits and the output bits of a command are apart. -/
theorem apart_of_ready {i : Instr} (ready : Ready s p i) :
    Apart p.src.toNat (inBits i p.cnt.toNat) p.dst.toNat (outBits i p.cnt.toNat) := by
  obtain ⟨-, rfl, -, noOverlap⟩ := ready
  exact Pending.apart ((overlaps_eq_false_iff p).2 noOverlap)

theorem eq_retire_of_ready {i : Instr} (ready : Ready s p i) (h : exec i s = .next t) : t = (ruleOf i p s).retire :=
  Host.Outcome.next.inj (h.symm.trans (exec_of_ready ready))

/-- The count of DECODE (R134). -/
theorem resCount_of_decode (ready : Ready s p .decode) (h : exec .decode s = .next t) :
    t.resCount.toNat = nData p.cnt.toNat := by
  obtain rfl := eq_retire_of_ready ready h
  have count : (ruleOf .decode p s).resCount = BitVec.ofNat 32 (nData p.cnt.toNat) :=
    congrArg (BitVec.ofNat 32) (decodeRun_bits _ _ _ _)
  rw [retire_resCount, count, BitVec.toNat_ofNat, Nat.mod_eq_of_lt (lt_of_le_of_lt (nData_le _) p.cnt.isLt)]

/-- The syndrome of DECODE (R132). -/
theorem resSynd_of_decode (ready : Ready s p .decode) (h : exec .decode s = .next t) :
    t.resSynd.toNat = xorPositions (bitRead s.mem p.src.toNat) p.cnt.toNat := by
  obtain rfl := eq_retire_of_ready ready h
  have syndrome : (ruleOf .decode p s).resSynd =
      BitVec.ofNat 32 (xorPositions (bitRead s.mem p.src.toNat) p.cnt.toNat) :=
    congrArg (BitVec.ofNat 32) (decodeRun_synd _ _ _ _ (apart_of_ready ready))
  rw [retire_resSynd, syndrome, BitVec.toNat_ofNat, Nat.mod_eq_of_lt (xorPositions_lt p.cnt.isLt)]

/-- DECODE copies the codeword bit of each data position to its output slot (R133). -/
theorem bitRead_of_decode (ready : Ready s p .decode) (h : exec .decode s = .next t) {y : Nat}
    (hy : y < p.cnt.toNat) (data : dataPos (y + 1) = true) :
    bitRead t.mem p.dst.toNat (nData y) = bitRead s.mem p.src.toNat y := by
  obtain rfl := eq_retire_of_ready ready h
  exact decodeRun_data _ _ _ _ (apart_of_ready ready) hy data

end

/-- Settles O43: the completion is the rule of R131, and a syndrome has no more bits than its count. -/
theorem decodeReturnsCountAndSyndrome : Obligations.DecodeReturnsCountAndSyndrome := by
  intro s p ready
  have next := exec_of_ready ready
  have syndrome := resSynd_of_decode ready next
  refine ⟨_, next, rfl, resCount_of_decode ready next, syndrome, ?_, fun fits => ?_⟩
  · rw [syndrome]
    exact xorPositions_lt (lt_two_pow_nPar _)
  · rw [syndrome]
    exact xorPositions_lt fits

/-- Settles O44: the data position of index `j` lies in the codeword, and DECODE copies its bit. -/
theorem decodeExtractsTheDataBits : Obligations.DecodeExtractsTheDataBits := by
  intro s t p ready h j q hj data slot
  obtain ⟨y, rfl, rfl, inside⟩ := index_of_slot hj data slot
  exact bitRead_of_decode ready h inside data

/-! ### The codeword of an ENCODE, with errors -/

section
variable {s t v : State} {p q : Pending} {i : Instr} {e : Nat → Bool}

/-- Input bit `y` of a command on such a codeword is that of the message's codeword, inverted where `e` says. -/
theorem bitRead_of_onCodeword (ready : Ready s p .encode) (h : exec .encode s = .next t)
    (on : OnCodeword i p t v q e) {y : Nat} (hy : y < lenc p.cnt.toNat) :
    bitRead v.mem q.src.toNat y = (codewordBit (bitRead s.mem p.src.toNat) p.cnt.toNat y ^^ e y) := by
  obtain ⟨-, src, -, bits⟩ := on
  rw [src, bits y hy, bitRead_of_encode ready h hy]

/-- The codeword sums to 0 (R122), so the input sums to the XOR of its errors (R141). -/
theorem xorPositions_of_onCodeword (ready : Ready s p .encode) (h : exec .encode s = .next t)
    (on : OnCodeword i p t v q e) :
    xorPositions (bitRead v.mem q.src.toNat) q.cnt.toNat = xorPositions e (lenc p.cnt.toNat) := by
  have ⟨_, _, cnt, _⟩ := on
  rw [cnt, xorPositions_congr fun y hy => bitRead_of_onCodeword ready h on hy, xorPositions_xor,
    xorPositions_codewordBit, Nat.zero_xor]

/-- The syndrome of a DECODE of such a codeword (R141). -/
theorem resSynd_of_onCodeword {u : State} (ready : Ready s p .encode) (h : exec .encode s = .next t)
    (on : OnCodeword .decode p t v q e) (h' : exec .decode v = .next u) :
    u.resSynd.toNat = xorPositions e (lenc p.cnt.toNat) :=
  (resSynd_of_decode on.1 h').trans (xorPositions_of_onCodeword ready h on)

end

/-- Settles O48: there are no errors, the codeword has `n` data positions, and they hold the message. -/
theorem decodeOfAnEncodedMessageReturnsTheMessage : Obligations.DecodeOfAnEncodedMessageReturnsTheMessage := by
  intro s t v p q ready h on
  have bits {y : Nat} := bitRead_of_onCodeword ready h on (y := y)
  have ⟨ready', _, cnt, _⟩ := on
  have next := exec_of_ready ready'
  refine ⟨_, next, ?_, ?_, fun j hj => ?_⟩
  · refine BitVec.eq_of_toNat_eq ((resSynd_of_onCodeword ready h on next).trans ?_)
    exact xorPositions_false _
  · rw [resCount_of_decode ready' next, cnt, nData_lenc]
  · obtain ⟨y, inside, data, rfl⟩ := exists_dataPos (hj.trans_eq (nData_lenc _).symm)
    rw [bitRead_of_decode ready' next (inside.trans_eq cnt.symm) data, bits inside, codewordBit_of_dataPos data,
      Bool.xor_false]

/-- Settles O49: a single error gives its own position. -/
theorem syndromeOfACorruptedCodewordIsTheXorOfItsErrors :
    Obligations.SyndromeOfACorruptedCodewordIsTheXorOfItsErrors := by
  intro s t v p q e ready h on
  have next := exec_of_ready on.1
  have syndrome := resSynd_of_onCodeword ready h on next
  refine ⟨_, next, syndrome, fun y hy single => ?_⟩
  have position := syndrome.trans (xorPositions_single hy single)
  refine ⟨position, ?_⟩
  rw [position, dataPos_succ, Bool.not_eq_false']

/-- Settles O50: the syndrome is the XOR of the errors, two distinct positions never cancel, and 1, 2 and 3 do. -/
theorem zeroSyndromeErrorPatterns : Obligations.ZeroSyndromeErrorPatterns := by
  intro s t v p q e ready h on
  have next := exec_of_ready on.1
  have syndrome := resSynd_of_onCodeword ready h on next
  have zero_iff : (ruleOf .decode q v).retire.resSynd = 0 ↔ xorPositions e (lenc p.cnt.toNat) = 0 := by
    rw [← syndrome]
    exact BitVec.toNat_inj.symm
  refine ⟨_, next, zero_iff, fun x y hx hy two => ?_, fun long three => ?_⟩
  · have pair := xorPositions_pair hx hy two
    refine ⟨syndrome.trans pair, fun zero => ?_⟩
    have cancel := Nat.xor_eq_zero_iff.1 (pair.symm.trans (zero_iff.1 zero))
    omega
  · exact zero_iff.2 (xorPositions_first_three long three)

end Sys2Proof.Machine
end

section
/-! CORRECT: the index it flips (R155, R156), its count, its syndrome and its data bits (R153, R154, R157), and the
single-error guarantee (R158). -/

namespace Sys2Proof.Machine

open Sys2Proof.Claims

/-! ### The flipped index -/

/-- The test of R152 (R153, R154). -/
theorem correctable_iff (s c : Nat) : correctable s c = true ↔ s ≠ 0 ∧ isPow2 s = false ∧ s ≤ c := by
  simp only [correctable, Bool.and_eq_true, Bool.not_eq_true', decide_eq_true_iff, and_assoc]

/-- Settles O46: `clog2` counts the parity positions up to `S`, and the flipped index is a slot of the output. -/
theorem flippedIndexIsTheSlotOfTheSyndrome : Obligations.FlippedIndexIsTheSlotOfTheSyndrome := by
  intro s c nonzero noPower inside
  have exponent := clog2_eq_nPar nonzero noPower
  obtain ⟨data, slot, lt⟩ := correctable_slot ((correctable_iff s c).2 ⟨nonzero, noPower, inside⟩)
  exact ⟨exponent, by rw [exponent, nData], data, slot.trans_lt lt⟩

/-- Two data positions never share an output slot. -/
theorem eq_of_nData_eq {x y : Nat} (hx : dataPos (x + 1) = true) (hy : dataPos (y + 1) = true)
    (same : nData x = nData y) : x = y := by
  by_contra differ
  obtain lt | lt := Nat.lt_or_gt_of_ne differ
  · exact (nData_lt_of_dataPos lt hx).ne same
  · exact (nData_lt_of_dataPos lt hy).ne' same

/-- CORRECT flips the output slot of a data position exactly when the syndrome is that position (R156). -/
theorem flips_slot_iff {s c y : Nat} (hy : y < c) (data : dataPos (y + 1) = true) :
    (correctable s c && decide (nData y = s - clog2 s - 1)) = decide (s = y + 1) := by
  rw [Bool.eq_iff_iff, Bool.and_eq_true, decide_eq_true_iff, decide_eq_true_iff]
  constructor
  · rintro ⟨accepted, index⟩
    obtain ⟨nonzero, -, -⟩ := (correctable_iff s c).1 accepted
    obtain ⟨data', slot, -⟩ := correctable_slot accepted
    obtain ⟨x, rfl⟩ := Nat.exists_eq_succ_of_ne_zero nonzero
    rw [eq_of_nData_eq data data' (index.trans slot)]
  · rintro rfl
    have noPower : isPow2 (y + 1) = false := by rwa [dataPos_succ, Bool.not_eq_true'] at data
    have accepted := (correctable_iff (y + 1) c).2 ⟨y.succ_ne_zero, noPower, hy⟩
    obtain ⟨-, slot, -⟩ := correctable_slot accepted
    exact ⟨accepted, slot.symm⟩

/-! ### The completion of CORRECT -/

section
variable {s t : State} {p : Pending}

/-- The count of CORRECT (R157). -/
theorem resCount_of_correct (ready : Ready s p .correct) (h : exec .correct s = .next t) :
    t.resCount.toNat = nData p.cnt.toNat := by
  obtain rfl := eq_retire_of_ready ready h
  have count : (ruleOf .correct p s).resCount = BitVec.ofNat 32 (nData p.cnt.toNat) :=
    congrArg (BitVec.ofNat 32) (correctRun_bits _ _ _ _)
  rw [retire_resCount, count, BitVec.toNat_ofNat, Nat.mod_eq_of_lt (lt_of_le_of_lt (nData_le _) p.cnt.isLt)]

/-- The syndrome that the walk of CORRECT accumulates. -/
theorem correctRun_synd_of_ready (ready : Ready s p .correct) :
    (correctRun s.mem p.src.toNat p.dst.toNat p.cnt.toNat).synd =
      xorPositions (bitRead s.mem p.src.toNat) p.cnt.toNat :=
  (correctRun_synd _ _ _ _).trans (decodeRun_synd _ _ _ _ (apart_of_ready ready))

/-- The syndrome of CORRECT (R157). -/
theorem resSynd_of_correct (ready : Ready s p .correct) (h : exec .correct s = .next t) :
    t.resSynd.toNat = xorPositions (bitRead s.mem p.src.toNat) p.cnt.toNat := by
  obtain rfl := eq_retire_of_ready ready h
  have syndrome : (ruleOf .correct p s).resSynd =
      BitVec.ofNat 32 (xorPositions (bitRead s.mem p.src.toNat) p.cnt.toNat) :=
    congrArg (BitVec.ofNat 32) (correctRun_synd_of_ready ready)
  rw [retire_resSynd, syndrome, BitVec.toNat_ofNat, Nat.mod_eq_of_lt (xorPositions_lt p.cnt.isLt)]

/-- CORRECT copies the codeword bit of each data position to its output slot, and flips the slot that the syndrome
names (R152). -/
theorem bitRead_of_correct (ready : Ready s p .correct) (h : exec .correct s = .next t) {y : Nat}
    (hy : y < p.cnt.toNat) (data : dataPos (y + 1) = true) :
    bitRead t.mem p.dst.toNat (nData y) = (bitRead s.mem p.src.toNat y ^^
      (correctable t.resSynd.toNat p.cnt.toNat && decide (nData y = t.resSynd.toNat - clog2 t.resSynd.toNat - 1))) := by
  rw [resSynd_of_correct ready h, ← correctRun_synd_of_ready ready,
    ← decodeRun_data _ _ _ p.cnt.toNat (apart_of_ready ready) hy data]
  obtain rfl := eq_retire_of_ready ready h
  exact correctRun_bit _ _ _ _ _

end

/-- Settles O45: the completion is the rule of R152, and the data position of index `j` lies in the codeword. -/
theorem correctFlipsTheBitTheSyndromeNames : Obligations.CorrectFlipsTheBitTheSyndromeNames := by
  intro s p ready
  have next := exec_of_ready ready
  refine ⟨_, next, rfl, resCount_of_correct ready next, resSynd_of_correct ready next, fun j q hj data slot => ?_⟩
  obtain ⟨y, rfl, rfl, inside⟩ := index_of_slot hj data slot
  exact bitRead_of_correct ready next inside data

/-! ### At most one error -/

/-- One error gives its own position. -/
theorem xorPositions_some {x c : Nat} (hx : x < c) : xorPositions (fun z => decide (some x = some z)) c = x + 1 :=
  xorPositions_single hx fun z _ => by simp [eq_comm]

/-- The syndrome of at most one error is a position of the codeword exactly when the error is there. -/
theorem xorPositions_atMostOne_eq_iff (e : Option Nat) {y c : Nat} (hy : y < c) :
    xorPositions (fun z => decide (e = some z)) c = y + 1 ↔ e = some y := by
  constructor
  · intro position
    by_cases hit : ∃ x, x < c ∧ e = some x
    · obtain ⟨x, hx, rfl⟩ := hit
      rw [Nat.succ_injective ((xorPositions_some hx).symm.trans position)]
    · have clean : xorPositions (fun z => decide (e = some z)) c = 0 := by
        rw [xorPositions_congr fun z hz => decide_eq_false fun error => hit ⟨z, hz, error⟩, xorPositions_false]
      exact absurd (position.symm.trans clean) y.succ_ne_zero
  · rintro rfl
    exact xorPositions_some hy

/-- Settles O51: at a data position the flip undoes the error, for the syndrome names a position exactly when the error
is there. -/
theorem correctRepairsAnySingleError : Obligations.CorrectRepairsAnySingleError := by
  intro s t v p q e ready h on
  have ⟨ready', _, cnt, _⟩ := on
  have next := exec_of_ready ready'
  have syndrome := (resSynd_of_correct ready' next).trans (xorPositions_of_onCodeword ready h on)
  refine ⟨_, next, ?_, fun j hj => ?_⟩
  · rw [resCount_of_correct ready' next, cnt, nData_lenc]
  · obtain ⟨y, inside, data, rfl⟩ := exists_dataPos (hj.trans_eq (nData_lenc _).symm)
    have inside' := inside.trans_eq cnt.symm
    have repaired : (decide (e = some y) ^^ decide ((ruleOf .correct q v).retire.resSynd.toNat = y + 1)) = false := by
      rw [syndrome, decide_eq_decide.2 (xorPositions_atMostOne_eq_iff e inside), Bool.xor_self]
    calc bitRead (ruleOf .correct q v).retire.mem q.dst.toNat (nData y)
        = (bitRead v.mem q.src.toNat y ^^ decide ((ruleOf .correct q v).retire.resSynd.toNat = y + 1)) := by
          rw [bitRead_of_correct ready' next inside' data, flips_slot_iff inside' data]
      _ = codewordBit (bitRead s.mem p.src.toNat) p.cnt.toNat y := by
          rw [bitRead_of_onCodeword ready h on inside, Bool.xor_assoc, repaired, Bool.xor_false]
      _ = bitRead s.mem p.src.toNat (nData y) := codewordBit_of_dataPos data

end Sys2Proof.Machine
end

section
/-! The illegal words (R75, R76): the fields of a word as numbers, and the tests of R78 on them. -/

namespace Sys2Proof

theorem rsvField_eq_zero_iff (w : Word) : rsvField w = 0 ↔ w.toNat / 32 = 0 := by
  have := w.isLt
  rw [← BitVec.toNat_inj, rsvField, BitVec.extractLsb'_toNat, Nat.shiftRight_eq_div_pow]
  change _ % 2 ^ 27 = 0 ↔ _
  omega

theorem valField_eq_true_iff (w : Word) : valField w = true ↔ w.toNat / 16 % 2 = 1 := by
  rw [valField, BitVec.getLsbD, Nat.testBit_eq_decide_div_mod_eq, decide_eq_true_iff]

theorem opField_toNat (w : Word) : (opField w).toNat = w.toNat % 16 := by
  rw [opField, BitVec.extractLsb'_toNat, Nat.shiftRight_zero]

theorem opField_eq_five_iff (w : Word) : opField w = 0x5 ↔ w.toNat % 16 = 5 := by
  rw [← BitVec.toNat_inj, opField_toNat]
  rfl

/-- The opcode map of the commands whose VAL must be 0 refuses the reserved OP values (R75) and that of SET_BIT. -/
theorem decodeOp_eq_reservedOp_iff (op : BitVec 4) :
    decodeOp op = .error .reservedOp ↔ op.toNat = 0 ∨ op.toNat = 5 ∨ 7 ≤ op.toNat := by
  revert op
  decide

/-- It refuses for no other reason. -/
theorem decodeOp_refuses_iff_reservedOp (op : BitVec 4) :
    (∃ r, decodeOp op = .error r) ↔ decodeOp op = .error .reservedOp := by
  refine ⟨fun ⟨r, refused⟩ => ?_, fun refused => ⟨_, refused⟩⟩
  unfold decodeOp at refused ⊢
  split_ifs at refused ⊢
  rfl

/-- The decoder refuses a word by one of the three tests of R78. -/
theorem decode_refuses_iff (w : Word) :
    (∃ r, decode w = .error r) ↔
      rsvField w ≠ 0 ∨ opField w ≠ 0x5 ∧ (valField w = true ∨ decodeOp (opField w) = .error .reservedOp) := by
  rw [← decodeOp_refuses_iff_reservedOp]
  unfold decode
  split_ifs with reserved setBit stray
  · exact iff_of_true ⟨_, rfl⟩ (.inl reserved)
  · exact iff_of_false (fun ⟨_, accepted⟩ => nomatch accepted) (by tauto)
  · exact iff_of_true ⟨_, rfl⟩ (.inr ⟨setBit, .inl stray⟩)
  · tauto

/-- The refusals of the decoder in arithmetic on the word (R75, R76). -/
theorem decode_refuses_iff_toNat (w : Word) :
    (∃ r, decode w = .error r) ↔
      w.toNat % 16 = 0 ∨ 7 ≤ w.toNat % 16 ∨ w.toNat / 32 ≠ 0 ∨ (w.toNat / 16 % 2 = 1 ∧ w.toNat % 16 ≠ 5) := by
  rw [decode_refuses_iff, Ne, rsvField_eq_zero_iff, Ne, opField_eq_five_iff, valField_eq_true_iff,
    decodeOp_eq_reservedOp_iff, opField_toNat]
  omega

end Sys2Proof
end

section
/-! The CMD write and the hardware faults: each test of R178 with its next state, what a fault leaves unchanged (R177,
R180), and how long it stays (R183). -/

namespace Sys2Proof.Machine

/-! ### The tests before the issue checks -/

theorem cmdWrite_of_faulted {s : State} (faulted : s.fault ≠ none) (w : Word) : cmdWrite w s = .next s := by
  obtain ⟨c, hc⟩ := Option.ne_none_iff_exists'.1 faulted
  unfold cmdWrite
  rw [hc]

section
variable {s : State} (noFault : s.fault = none)
include noFault

/-- A CMD write while BUSY = 1 (R180). -/
theorem cmdWrite_of_busy (busy : s.pending ≠ none) (w : Word) :
    cmdWrite w s = .next { s with fault := some FaultCode.cmdOverrun } := by
  obtain ⟨p, hp⟩ := Option.ne_none_iff_exists'.1 busy
  rw [← raiseFault_of_none _ .cmdOverrun noFault, cmdWrite, noFault, hp]

/-- A CMD write of an illegal word (R175). -/
theorem cmdWrite_of_illegal (idle : s.pending = none) {w : Word} {r : IllegalWord} (illegal : decode w = .error r) :
    cmdWrite w s = .next { s with fault := some FaultCode.illegalCmd } := by
  rw [← raiseFault_of_none _ .illegalCmd noFault, cmdWrite, noFault, idle, illegal]

/-- A CMD write of a legal word whose issue checks fail (R177). -/
theorem cmdWrite_of_issueFault (idle : s.pending = none) {w : Word} {i : Instr} {c : FaultCode}
    (legal : decode w = .ok i) (fails : (s.operands i).issueFault s.cfg = some c) :
    cmdWrite w s = .next { s with fault := some c } := by
  rw [← raiseFault_of_none _ c noFault, cmdWrite_of_legal noFault idle legal, exec_of_idle idle, issue, noFault]
  simp only [fails]

/-- A CMD write of a legal word that passes every check latches its command (R33). -/
theorem cmdWrite_of_passed (idle : s.pending = none) {w : Word} {i : Instr} (legal : decode w = .ok i)
    (passes : (s.operands i).issueFault s.cfg = none) :
    cmdWrite w s = .next { s with pending := some (s.operands i) } := by
  change cmdWrite w s = .next (s.latch (s.operands i))
  rw [cmdWrite_of_legal noFault idle legal, exec_of_idle idle, issue, noFault]
  simp only [passes]

end

/-- Settles O2: a refused word raises ILLEGAL_CMD, and an issue raises one of three other codes or none. -/
theorem illegalCmdIsRaisedByExactlyTheIllegalWords : Obligations.IllegalCmdIsRaisedByExactlyTheIllegalWords := by
  intro s w noFault idle
  refine ⟨⟨?_, fun ⟨r, illegal⟩ => ⟨_, cmdWrite_of_illegal noFault idle illegal, rfl, rfl⟩⟩,
    decode_refuses_iff_toNat w⟩
  rintro ⟨t, write, recorded, -⟩
  obtain ⟨fault, -⟩ | ⟨-, busy, -⟩ | ⟨-, -, illegal, -⟩ | ⟨-, -, i, -, rfl⟩ := cmdWrite_cases write
  · exact absurd noFault fault
  · exact absurd idle busy
  · exact illegal
  · rw [issue_fault noFault] at recorded
    obtain code | code | code := issueFault_some_cases recorded <;> cases code

/-! ### The issue checks (R172 to R174) -/

/-- COUNT_OVERFLOW is the check of ENCODE alone (R172). -/
theorem overflows_iff (c : Config) (p : Pending) :
    p.overflows c = true ↔ p.cmd = .encode ∧ 2 ^ c.cntW - 1 < lenc p.cnt.toNat := by
  unfold Pending.overflows
  cases p.cmd <;> simp

/-- A bit command has no input bytes (R60). -/
theorem codeword_of_inBytes {p : Pending} {a : Nat} (h : p.inBytes.has a = true) :
    p.cmd = .encode ∨ p.cmd = .decode ∨ p.cmd = .correct := by
  cases cmd : p.cmd with
  | encode => exact .inl rfl
  | decode => exact .inr (.inl rfl)
  | correct => exact .inr (.inr rfl)
  | getBit | setBit | flipBit =>
    have empty : p.inBytes.len = 0 := by simp [Pending.inBytes, inBytes, inBits, nbytes, cmd]
    rw [ByteRange.has_of_len_zero empty] at h
    cases h

/-- OVERLAP is raised exactly when the input and the output of a codeword command share a byte (R174). -/
theorem overlaps_iff (p : Pending) :
    p.overlaps = true ↔
      (p.cmd = .encode ∨ p.cmd = .decode ∨ p.cmd = .correct) ∧
        ∃ a, p.inBytes.has a = true ∧ p.outBytes.has a = true := by
  have shared : p.overlaps = true ↔ ∃ a, p.inBytes.has a = true ∧ p.outBytes.has a = true := by
    rw [← Bool.not_eq_false, overlaps_eq_false_iff]
    push Not
    simp only [Bool.not_eq_false]
  rw [shared]
  exact ⟨fun ⟨a, input, output⟩ => ⟨codeword_of_inBytes input, a, input, output⟩, And.right⟩

theorem issueFault_of_leavesMemory {c : Config} {p : Pending} (fits : p.overflows c = false)
    (leaves : p.leavesMemory c = true) : p.issueFault c = some .range := by
  simp [Pending.issueFault, fits, leaves]

theorem issueFault_of_overlaps {c : Config} {p : Pending} (fits : p.overflows c = false)
    (inside : p.leavesMemory c = false) (overlaps : p.overlaps = true) : p.issueFault c = some .overlap := by
  simp [Pending.issueFault, fits, inside, overlaps]

/-- Settles O10: the first test that fails says the next state, each check in terms of bytes. -/
theorem cmdWriteFollowsTheTestsInOrder : Obligations.CmdWriteFollowsTheTestsInOrder := by
  intro s w
  refine ⟨fun faulted => cmdWrite_of_faulted faulted w, fun noFault busy => cmdWrite_of_busy noFault busy w,
    fun noFault idle r illegal => cmdWrite_of_illegal noFault idle illegal, ?_⟩
  rintro noFault idle i legal _ rfl
  have overflow := overflows_iff s.cfg (s.operands i)
  refine ⟨fun exceeds => ?_, fun within => ?_⟩
  · exact cmdWrite_of_issueFault noFault idle legal
      ((issueFault_eq_countOverflow_iff _ _).2 (overflow.2 exceeds))
  have fits := Bool.eq_false_of_not_eq_true (mt overflow.1 within)
  refine ⟨fun leaves => ?_, fun inMemory => ?_⟩
  · exact cmdWrite_of_issueFault noFault idle legal
      (issueFault_of_leavesMemory fits ((leavesMemory_iff _ _).2 leaves))
  have inside := (leavesMemory_eq_false_iff s.cfg (s.operands i)).2 inMemory
  have overlap := overlaps_iff (s.operands i)
  refine ⟨fun shared => ?_, fun apart => ?_⟩
  · exact cmdWrite_of_issueFault noFault idle legal (issueFault_of_overlaps fits inside (overlap.2 shared))
  · exact cmdWrite_of_passed noFault idle legal
      ((issueFault_none_iff _ _).2 ⟨fits, inside, Bool.eq_false_of_not_eq_true (mt overlap.1 apart)⟩)

/-! ### What a fault leaves (R177, R180) -/

/-- Settles O11: an illegal word and a failed check both record a fault of their own, and a latched command none. -/
theorem suppressedCmdWriteChangesOnlyTheFault : Obligations.SuppressedCmdWriteChangesOnlyTheFault := by
  intro s t w c noFault idle write recorded
  have busy : s.busy = false := by rw [State.busy, idle]; rfl
  obtain ⟨fault, -⟩ | ⟨-, wasBusy, -⟩ | ⟨-, -, -, rfl⟩ | ⟨-, -, i, legal, issued⟩ := cmdWrite_cases write
  · exact absurd noFault fault
  · exact absurd idle wasBusy
  · cases recorded
    exact ⟨nofun, rfl, busy⟩
  · rw [issued, issue_fault noFault] at recorded
    rw [cmdWrite_of_issueFault noFault idle legal recorded] at write
    cases write
    refine ⟨?_, rfl, busy⟩
    obtain rfl | rfl | rfl := issueFault_some_cases recorded <;> exact nofun

/-- A rule neither reads nor writes the fault. -/
theorem ruleOf_withFault (i : Instr) (p : Pending) (s : State) (f : Option FaultCode) :
    ruleOf i p { s with fault := f } = { ruleOf i p s with fault := f } := by
  cases i <;> rfl

/-- Settles O12: the pending command's completion is its rule, which a recorded fault does not change. -/
theorem overrunDiscardsTheWordAndThePendingCommandCompletes :
    Obligations.OverrunDiscardsTheWordAndThePendingCommandCompletes := by
  intro s p w noFault hp
  refine ⟨cmdWrite_of_busy noFault (by simp [hp]) w, fun u completes => ?_⟩
  obtain ⟨inside, rfl⟩ := exec_completion hp rfl completes
  refine ⟨?_, rfl, fun w' => cmdWrite_of_faulted (Option.some_ne_none _) w'⟩
  rw [exec_of_pending (s := { s with fault := some .cmdOverrun }) hp inside, ruleOf_withFault]
  rfl

/-! ### How long a fault stays (R183) -/

theorem blockStep_fault {s t : State} (h : blockStep s = .next t) : t.fault = s.fault := by
  obtain ⟨-, rfl⟩ | ⟨p, -, -, rfl⟩ := blockStep_cases h
  · rfl
  · rw [retire_ruleOf_frame, settleRaces_fault]

/-- Settles O13: no access of the host and no completion writes a recorded fault, and a reset clears it. -/
theorem faultStaysUntilReset : Obligations.FaultStaysUntilReset := by
  intro s t c recorded h
  have faulted : s.fault ≠ none := recorded ▸ Option.some_ne_none c
  refine ⟨fun noReset => ?_, fun reset => ?_, cmdWrite_of_faulted faulted⟩
  · rw [← recorded]
    cases mover : s.mover with
    | host =>
      obtain ⟨-, -, -, -, fault, -⟩ := (step_hostAccess mover h).frame
      exact fault faulted
    | block => exact blockStep_fault (s := { s with schedule := s.schedule.tail }) (step_of_block mover ▸ h)
    | reset => exact absurd mover noReset
  · rw [step_of_reset reset] at h
    cases h
    rfl

end Sys2Proof.Machine
end

section
/-! The model-fault mark (R185) only grows: the host's accesses add to it, the block and reset leave it. -/

namespace Sys2Proof.Machine

/-- Every reason in the mark `k` is in `l`. -/
def Mark.GrowsTo (k l : Mark) : Prop :=
  (k.hostRace = true → l.hostRace = true) ∧ (k.busError = true → l.busError = true)

theorem Mark.GrowsTo.of_eq {k l : Mark} (h : l = k) : k.GrowsTo l := h ▸ ⟨id, id⟩

theorem HostAccess.mark_growsTo {s t : State} (h : HostAccess s t) : s.mark.GrowsTo t.mark := by
  obtain ⟨v, u, ⟨_, _, _, _, _, rfl⟩, access, ⟨_, _, _, _, _, rfl⟩⟩ := h
  obtain ⟨-, -, -, -, -, -, -, grows⟩ := access.frame
  exact grows

theorem agentStep_mark_growsTo {a : Agent} {s t : State} (h : agentStep a s = .next t) : s.mark.GrowsTo t.mark := by
  cases a with
  | host => exact (hostStep_cases h).mark_growsTo
  | block =>
    obtain ⟨-, rfl⟩ | ⟨p, -, -, rfl⟩ := blockStep_cases h
    · exact .of_eq rfl
    · exact .of_eq (by rw [retire_ruleOf_frame, settleRaces_mark])
  | reset => cases h; exact .of_eq rfl

/-- Settles O22: a step is an agent's step, and no agent takes a reason away. -/
theorem modelFaultMarkOnlyGrows : Obligations.ModelFaultMarkOnlyGrows := by
  intro s t h
  rw [step_eq] at h
  exact agentStep_mark_growsTo (s := { s with schedule := s.schedule.tail }) h

end Sys2Proof.Machine
end

section
/-! The registers after a reset event (R201): each at its value of R43. -/

namespace Sys2Proof.Machine

/-- STATUS of a block that is idle and holds no fault (R25). -/
theorem statusWord_of_idle {s : State} (idle : s.pending = none) (noFault : s.fault = none) : s.statusWord = 0 := by
  unfold State.statusWord State.busy State.faulted State.fcode
  rw [idle, noFault]
  rfl

/-- Settles O8: the step is the reset event, which leaves the block idle, unfaulted and with its registers 0. -/
theorem resetEventClearsTheRegisters : Obligations.ResetEventClearsTheRegisters :=
  fun _ reset => ⟨_, step_of_reset reset, statusWord_of_idle (resetEvent_pending _) (resetEvent_fault _),
    resetEvent_dstAddr _, resetEvent_srcAddr _, resetEvent_count _, resetEvent_resCount _, resetEvent_resSynd _,
    resetEvent_resBit _, resetEvent_pending _, resetEvent_mark _⟩

end Sys2Proof.Machine
end
